-- ==== Sys2Proof/Word.lean ====
section
/-! DEFINITION. Word: the word types of TFA and the closed sets of names the spec gives it (tags, groups,
hints, destinations, drop reasons, command error names). Their numeric codes are in Machine/Codes.lean. -/

namespace Sys2Proof

/-- An octet: an 8-bit unsigned value, bit 0 least significant (R7). -/
abbrev Octet := BitVec 8

/-- A word of the command stream, and the width of every status register (R79, R29). -/
abbrev Word := BitVec 16

/-- A word of the event stream's bit layout (R87). -/
abbrev EventWord := BitVec 32

/-- `MessageType`, the closed enumeration of 25 tags, in the document's order (R75, R76). -/
inductive Tag where
  | sendNorm | confirmAck | mpContacts | sbStatus | sysIntArmed | sysExtArmed | sysDisarmed
  | alarm | intrusion | batteryMalfunction | powerOutage | opticalFlasherMalfunction
  | horn1Malfunction | horn2Malfunction | comFault | usedInputs | usedOutputs
  | usedContactsInfo | usedOutputContactsInfo | usedSbContactsInfo | usedMbContactsInfo
  | restart | notUsedContact | unknown | invalid
  deriving DecidableEq, Repr

/-- The four channel groups, which number the snapshot registers `PREV[g]` (R24, R78). -/
inductive Group where
  | mp | sb | mb | mbd
  deriving DecidableEq, Repr

/-- What a tag means to the readiness gate outside the block (R77, R138). -/
inductive Hint where
  | none | set | clr
  deriving DecidableEq, Repr

/-- The consumer class of a Telegram (R77, R137). -/
inductive Dest where
  | none | diff | discovery | passthru | flowctl
  deriving DecidableEq, Repr

/-- Why `RX` discarded its buffer (R190). -/
inductive DropReason where
  | lenMismatch | checkFail | runaway | overflow
  deriving DecidableEq, Repr

/-- Why a command was refused (R196). -/
inductive ErrCode where
  | illegalOp | badData | badOperand
  deriving DecidableEq, Repr

end Sys2Proof
end

