-- ==== Sys2Proof/Config.lean ====
section
/-! DEFINITION. Config: the implementation parameters of R5. The parameters with a value in the spec have it
here; a whole parameter set is plain data (`Params`), the sets the spec refuses are refused (`Params.ok`), and the
set the block has at reset takes every OPEN parameter from a constant without a value (`Config.given`). -/

namespace Sys2Proof

namespace Config

/-- `START`, the frame marker (R5, R70). -/
abbrev start : Octet := 0x68

/-- `OVERHEAD`: the octets of a frame that its length octet does not count (R5, R71). -/
abbrev overhead : Nat := 6

/-- `ADDR_W`: the width of an event address (R5). -/
abbrev addrW : Nat := 16

/-- `CHUNK_MAX`: the most octets one `RX` carries (R5, R82). -/
abbrev chunkMax : Nat := 4095

/-- The default of `ITER_MAX` (R5; decision D33). -/
abbrev iterMaxDefault : Nat := 100

/-- The predicate `VALID` of a block whose check is none of the reference family of R108: any total predicate on the
octets of the candidate frame alone (R5, R107). FREE VALUE: no body, so nothing is assumed of it (assumption 2). -/
opaque openValid : List Octet → Bool

end Config

/-- An event address (R5, R86). -/
abbrev Address := BitVec Config.addrW

/-- The reference check functions `CKF` of R108. -/
inductive CheckFn where
  | xor8
  | sum8
  | crc8 (poly init xorout : Octet)
  deriving DecidableEq, Repr

/-- The parameter `VALID`, as plain data: an instantiation `VALID_CK(CKF, e)` of R108, or a predicate the spec does not
name (`Config.openValid`). `Machine/Validity.lean` says what each one accepts. -/
inductive Validity where
  | ck (f : CheckFn) (e : Option Octet)
  | unnamed
  deriving DecidableEq, Repr

/-- A row `(d, mask[0..d-1], value[0..d-1], tag)` of `CLASS_TABLE`; `tests` holds the `d` pairs `(mask[k], value[k])`
in the order of k (R133). -/
structure ClassRow where
  tests : List (Octet × Octet)
  tag : Tag
  deriving DecidableEq, Repr

/-- A row `(tag, g, off, cnt)` of `GROUP_MAP` (R140). -/
structure GroupRow where
  tag : Tag
  group : Group
  off : Octet
  cnt : Octet
  deriving DecidableEq, Repr

/-- A parameter set of R5. `bufCap = none` is "unbounded". `ITER_MAX` and `BUF_CAP` have the defaults of R5; the OPEN
parameters "have no defaults" and must be supplied (R5, R223 (1)). -/
structure Params where
  iterMax : Nat := Config.iterMaxDefault
  bufCap : Option Nat := none
  valid : Validity
  endOctet : Octet
  classTable : List ClassRow
  groupMap : List GroupRow
  baseMP : Nat
  baseSB : Nat
  baseMB : Nat
  baseMBD : Nat
  blockId : Word
  deriving DecidableEq, Repr

/-- `BASE[g]` (R5). -/
def Params.base (p : Params) : Group → Nat
  | .mp => p.baseMP
  | .sb => p.baseSB
  | .mb => p.baseMB
  | .mbd => p.baseMBD

/-- The tag of a table row is one of the 23 tags with codes 0 to 22 (R5, R133, R140). -/
def Tag.mayBeInTable : Tag → Bool
  | .unknown | .invalid => false
  | _ => true

/-- The shape R133 gives a `CLASS_TABLE` row: `1 <= d <= 261` and a tag that a row may have. -/
def ClassRow.ok (r : ClassRow) : Bool :=
  decide (1 ≤ r.tests.length) && decide (r.tests.length ≤ 261) && r.tag.mayBeInTable

/-- `BUF_CAP` is unbounded or at least 261 (R5). -/
def Params.capOk (p : Params) : Bool :=
  match p.bufCap with
  | none => true
  | some cap => decide (261 ≤ cap)

/-- The constraints a parameter set must meet (R5, R133, R140). -/
def Params.ok (p : Params) : Bool :=
  decide (1 ≤ p.iterMax) && decide (p.iterMax ≤ 65535) && p.capOk &&
  decide (p.baseMP + 2040 < 2 ^ Config.addrW) && decide (p.baseSB + 2040 < 2 ^ Config.addrW) &&
  decide (p.baseMB + 2040 < 2 ^ Config.addrW) && decide (p.baseMBD + 2040 < 2 ^ Config.addrW) &&
  p.classTable.all ClassRow.ok && p.groupMap.all (fun r => r.tag.mayBeInTable) &&
  decide ((p.groupMap.map fun r => (r.tag, r.group)).Nodup)

/-- A parameter set that meets the constraints of R5. A set that does not is refused: it cannot be built. -/
structure Configuration extends Params where
  isOk : toParams.ok = true := by decide
  deriving DecidableEq, Repr

/-- Some parameter set meets the constraints of R5. It only shows that there is one; it is no default, and no parameter of
the machine has its value. -/
abbrev Configuration.oneExists : Inhabited Configuration :=
  ⟨{ valid := .unnamed, endOctet := 0, classTable := [], groupMap := [], baseMP := 0, baseSB := 0, baseMB := 0,
     baseMBD := 0, blockId := 0 }⟩

/-- Fixing the parameters before reset (R223 (1)): a set that breaks a constraint is refused, "the model has no meaning
for it" (R5). -/
def Params.configure (p : Params) : Option Configuration :=
  if h : p.ok = true then some { p with isOk := h } else none

namespace Config

/-- A parameter set that meets the constraints, and nothing else is known of it. FREE VALUE: no body (assumption 2). -/
opaque someLegal [Inhabited Configuration] : Configuration

/-- The parameter set the host supplied before reset (R223 (1)): it meets the constraints, and nothing else is known of it
(assumption 2). -/
def given : Configuration := @someLegal Configuration.oneExists

/-- The parameter set at reset: `ITER_MAX` = 100 and `BUF_CAP` unbounded, the values R5 states, and every OPEN
parameter of R5 (`VALID`, `END_OCTET`, `CLASS_TABLE`, `GROUP_MAP`, `BASE`, `BLOCK_ID`) as `given` has it. -/
def atReset : Configuration :=
  { given with
    iterMax := iterMaxDefault
    bufCap := none
    isOk := by
      have h := given.isOk
      simp only [Params.ok, Bool.and_eq_true] at h ⊢
      exact ⟨⟨⟨⟨⟨⟨⟨⟨⟨by decide, by decide⟩, rfl⟩, h.1.1.1.1.1.1.2⟩, h.1.1.1.1.1.2⟩, h.1.1.1.1.2⟩, h.1.1.1.2⟩,
        h.1.1.2⟩, h.1.2⟩, h.2⟩ }

end Config

end Sys2Proof
end

