-- ==== Sys2Proof/Machine/Codes.lean ====
section
/-! DEFINITION. Machine/Codes: the numeric codes of tags, hints, destinations, groups, drop reasons and command
errors (R76, R77, R78, R190, R196). -/

namespace Sys2Proof

/-- Tag codes, 5 bits (R76). -/
def Tag.code : Tag → BitVec 5
  | .sendNorm => 0
  | .confirmAck => 1
  | .mpContacts => 2
  | .sbStatus => 3
  | .sysIntArmed => 4
  | .sysExtArmed => 5
  | .sysDisarmed => 6
  | .alarm => 7
  | .intrusion => 8
  | .batteryMalfunction => 9
  | .powerOutage => 10
  | .opticalFlasherMalfunction => 11
  | .horn1Malfunction => 12
  | .horn2Malfunction => 13
  | .comFault => 14
  | .usedInputs => 15
  | .usedOutputs => 16
  | .usedContactsInfo => 17
  | .usedOutputContactsInfo => 18
  | .usedSbContactsInfo => 19
  | .usedMbContactsInfo => 20
  | .restart => 21
  | .notUsedContact => 22
  | .unknown => 23
  | .invalid => 24

/-- Gate hint codes, 2 bits (R77). -/
def Hint.code : Hint → BitVec 2
  | .none => 0
  | .set => 1
  | .clr => 2

/-- Destination codes, 3 bits (R77). -/
def Dest.code : Dest → BitVec 3
  | .none => 0
  | .diff => 1
  | .discovery => 2
  | .passthru => 3
  | .flowctl => 4

/-- Group codes, 2 bits (R78). -/
def Group.code : Group → BitVec 2
  | .mp => 0
  | .sb => 1
  | .mb => 2
  | .mbd => 3

/-- The group of a 2-bit code (R78): every code names one. -/
def Group.ofCode (c : BitVec 2) : Group :=
  if c = 0 then .mp else if c = 1 then .sb else if c = 2 then .mb else .mbd

/-- Drop reason codes, 4 bits; 0 is "none" in `LASTDROP` (R190). -/
def DropReason.code : DropReason → BitVec 4
  | .lenMismatch => 1
  | .checkFail => 2
  | .runaway => 3
  | .overflow => 4

/-- Command error codes, 4 bits; 0 is "none" in `LASTERR` (R196). -/
def ErrCode.code : ErrCode → BitVec 4
  | .illegalOp => 1
  | .badData => 2
  | .badOperand => 3

end Sys2Proof
end

