-- ==== Sys2Proof/Machine/Operands.lean ====
section
/-! DEFINITION. Machine/Operands: reading the fields of a frame, the octets of a group, a snapshot out of octets, and
the hex-text of octets (R52, R70 to R72, R140, R153). -/

namespace Sys2Proof.Machine

/-- `L = LEN1`, the octet at offset 1 of a frame, unsigned (R70, R71). -/
def lengthOctet (frame : List Octet) : Nat := (frame.getD 1 0).toNat

/-- `FL = L + 6` (R71). -/
def frameLength (l : Nat) : Nat := l + Config.overhead

/-- The user data `U = F[4 .. 3+L]` of a frame, the Telegram's `payload` (R70, R72). -/
def userData (frame : List Octet) : List Octet := (frame.drop 4).take (lengthOctet frame)

/-- The hexadecimal digit of a nibble, letters upper case (R52). -/
def hexDigit (n : Nat) : Char := if n < 10 then Char.ofNat (48 + n) else Char.ofNat (55 + n)

/-- `HEX(s)`: two characters an octet, high nibble first (R7, R52). -/
def hexText (s : List Octet) : List Char :=
  s.flatMap fun o => [hexDigit (o.toNat / 16), hexDigit (o.toNat % 16)]

/-- The octets of group `row.group` in the user data of a Telegram: `U[off .. min(off + cnt, L) - 1]`, empty when
`off >= L` (R139, R140). -/
def groupSlice (row : GroupRow) (u : List Octet) : List Octet :=
  (u.take (min (row.off.toNat + row.cnt.toNat) u.length)).drop row.off.toNat

/-- The bits of an octet, bit 0 first (R7, R153). -/
def octetBits (o : Octet) : List Bool := (List.range 8).map fun j => o.getLsbD j

/-- The snapshot of the octets `N`: `new[8k + j] = N[k][j]` (R54, R153). -/
def snapshot (n : List Octet) : List Bool := n.flatMap octetBits

/-- `rev8(b)`: bit j is bit `7 - j` of b (R7). -/
def rev8 (o : Octet) : Octet := o.reverse

/-- The document's two steps of R153: reverse each octet, then build the array most significant bit first. -/
def snapshotTwoStep (n : List Octet) : List Bool :=
  (n.map rev8).flatMap fun o => (List.range 8).map fun j => o.getLsbD (7 - j)

/-- The number whose binary digits, least significant first, are `b`. -/
def bitsValue : List Bool → Nat
  | [] => 0
  | b :: bs => b.toNat + 2 * bitsValue bs

/-- The eight bits `new[8k .. 8k+7]` of a snapshot, as the `bits[0..7]` of a composite event: bit j is `new[8k + j]`
(R155). -/
def recordBits (new : List Bool) (k : Nat) : BitVec 8 := BitVec.ofNat 8 (bitsValue ((new.drop (8 * k)).take 8))

end Sys2Proof.Machine
end

