-- ==== Sys2Proof/Syntax.lean ====
section
/-! DEFINITION. Syntax: the operations of the command stream, one constructor per row of spec/opcode_table.json
(R80). -/

namespace Sys2Proof

/-- The operations of the block (R9 "Operation", R80). -/
inductive Instr where
  /-- `RX c`: one read iteration with the chunk `c` (R100). -/
  | rx (c : List Octet)
  /-- `CLS x`: classify the octet sequence `x` (R130). -/
  | cls (x : List Octet)
  /-- `DIFF g, N`: one comparator pass of group `g` on the octets `N` (R150). -/
  | diff (g : Group) (n : List Octet)
  /-- `SETREF`: request a full refresh (R151). -/
  | setref
  /-- `RDS r`: read status register `r` (R182). Every number the row's four bits can hold is an operand: a reserved
  register selects the row too and is refused by the meaning with `Err(BAD_OPERAND)` (R84 (b), R182). -/
  | rds (r : BitVec 4)
  /-- `RESET`: put the block into its reset state (R180). -/
  | reset
  deriving DecidableEq, Repr

end Sys2Proof
end

