-- ==== Sys2Proof/Machine/State.lean ====
section
/-! DEFINITION. Machine/State: the state of the block as plain data (R20), the two streams it stands between and its
parameter set (R21), the event records (R86), the ways a step can stop, and the state after reset (R34, R220). -/

namespace Sys2Proof.Machine

/-- The event records of R86, as data. Their bit layout is Machine/Records.lean. -/
inductive Event where
  /-- A Telegram: tag, gate hint, destination and the octets of the frame. -/
  | tg (tag : Tag) (hint : Hint) (dest : Dest) (raw : List Octet)
  /-- An address event of a bitwise pass. -/
  | ae (group : Group) (address : Address) (value : Bool)
  /-- A composite event of the bytewise pass; bit j of `bits` is the record's `bits[j]`. -/
  | sbe (address : Address) (bits : BitVec 8)
  /-- A drop and the number of octets discarded. -/
  | drop (reason : DropReason) (count : Nat)
  /-- The answer of `CLS`. -/
  | clsr (tag : Tag) (hint : Hint) (dest : Dest)
  /-- The answer of `RDS`. -/
  | csrv (r : BitVec 4) (value : Word)
  /-- A refused operation and its command word. -/
  | err (code : ErrCode) (word : Word)
  deriving DecidableEq, Repr

/-- The state. The ten elements from `buf` to `lastErr` are the whole state of the block (R20). `cfg`, `input` and
`events` are the model's own fields for what R21 says is not state: the parameters, which no operation writes
(assumption 1), the command stream not yet consumed, oldest word first, and the event stream, oldest record first. -/
structure State where
  /-- The parameter set, fixed before reset (R5, R21). -/
  cfg : Configuration
  /-- `BUF`, oldest octet at index 0 (R22). -/
  buf : List Octet
  /-- `ITER`, 16 bits (R23). -/
  iter : BitVec 16
  /-- `REFRESH` (R27). -/
  refresh : Bool
  /-- `PREV[MP]` (R24). -/
  prevMP : List Bool
  /-- `PREV[SB]` (R24). -/
  prevSB : List Bool
  /-- `PREV[MB]` (R24). -/
  prevMB : List Bool
  /-- `PREV[MBD]` (R24). -/
  prevMBD : List Bool
  /-- `LASTTAG` bits 4:0 (R29). -/
  lastTag : BitVec 5
  /-- `LASTDROP` bits 3:0 (R29). -/
  lastDrop : BitVec 4
  /-- `LASTERR` bits 3:0 (R29). -/
  lastErr : BitVec 4
  /-- The command words offered and not yet consumed (R79). -/
  input : List Word
  /-- The event records emitted (R86). -/
  events : List Event
  deriving DecidableEq, Repr

/-- The ways a step can end in a fault: none. Every operation on every state ends with a defined state, and "there is no
input on which the block is stuck, hangs or has undefined state" (R202). -/
inductive Fault where
  deriving DecidableEq, Repr

/-- The ways a step can be refused. -/
inductive Refusal where
  /-- Raised by an arm of `exec` whose instruction has no meaning yet (there is none). Safe: the machine stops. -/
  | notModelled (mnemonic : String)
  deriving DecidableEq, Repr

/-- The state after reset (R34, R220): the values of R34, an empty event stream (R220), no command word offered yet,
and the parameter set of `Config.atReset`. -/
def State.reset : State :=
  { cfg := Config.atReset
    buf := []
    iter := 0
    refresh := false
    prevMP := []
    prevSB := []
    prevMB := []
    prevMBD := []
    lastTag := 31
    lastDrop := 0
    lastErr := 0
    input := []
    events := [] }

end Sys2Proof.Machine
end

