-- ==== Sys2Proof/Machine/Ops.lean ====
section
/-! DEFINITION. Machine/Ops: the named operations over the buffer, the snapshot registers and the event stream; the two
exceptions of the block, a drop and a command error, each taken in one place (R191, R197); reset (R180, R220). There
is no return from an exception: neither has a handler (R183, R194). -/

namespace Sys2Proof.Machine

/-- The memory of the block: the buffer `BUF`, whose indices 0 to `BLEN - 1` are its addresses (R32, R50). -/
abbrev Memory := List Octet

/-- The octet at buffer index `a`; there is none at or above `BLEN` (R32, R50). -/
def Memory.read (m : Memory) (a : Nat) : Option Octet := m[a]?

/-- The memory as address and octet pairs, in address order. -/
def Memory.cells (m : Memory) : List Host.Cell := m.zipIdx.map fun c => (c.2, c.1)

/-- The canonical form of a buffer's cells: the addresses are 0, 1, .., in order, without a gap or a repeat (R32). -/
abbrev Memory.wf (cells : List Host.Cell) : Prop := cells.map Prod.fst = List.range cells.length

/-- `MemRead(addr, n)`: the octets `BUF[addr .. addr+n-1]`, defined only when `addr + n <= BLEN` (R8, R50). -/
def memRead (m : Memory) (addr n : Nat) : Option (List Octet) :=
  if addr + n ≤ m.length then some ((m.drop addr).take n) else none

/-- `BufAppend(c)` (R51). -/
def bufAppend (m : Memory) (c : List Octet) : Memory := m ++ c

/-- `BufDrop(n)`, used for `n <= BLEN` (R51). -/
def bufDrop (m : Memory) (n : Nat) : Memory := m.drop n

/-- `MemWrite(addr, n, v)`: `BufAppend(v)`, defined only for `addr = BLEN` (R8, R51). -/
def memWrite (m : Memory) (addr : Nat) (v : List Octet) : Option Memory :=
  if addr = m.length then some (bufAppend m v) else none

/-- `BLEN` (R22). -/
def State.blen (s : State) : Nat := s.buf.length

/-- `BufAppend(c)` on the state (R51, R101). -/
def State.append (s : State) (c : List Octet) : State := { s with buf := bufAppend s.buf c }

/-- `BufClear(); ITER <- 0` (R51, R101, R105, R110, R111). -/
def State.clearBuffer (s : State) : State := { s with buf := [], iter := 0 }

/-- The read of snapshot register `PREV[g]` (R8, R24). -/
def State.prev (s : State) : Group → List Bool
  | .mp => s.prevMP
  | .sb => s.prevSB
  | .mb => s.prevMB
  | .mbd => s.prevMBD

/-- The write of snapshot register `PREV[g]`, always as a whole (R8, R25). -/
def State.setPrev (s : State) (g : Group) (new : List Bool) : State :=
  match g with
  | .mp => { s with prevMP := new }
  | .sb => { s with prevSB := new }
  | .mb => { s with prevMB := new }
  | .mbd => { s with prevMBD := new }

/-- Append records to the event stream, in order (R7 "emit", R60 (d)). -/
def State.emitAll (s : State) (es : List Event) : State := { s with events := s.events ++ es }

/-- `emit e` (R7). -/
def State.emit (s : State) (e : Event) : State := s.emitAll [e]

/-- TAKING A DROP: `raise Drop(reason, cnt)`, after the raising rule has cleared the buffer and `ITER`: `LASTDROP`, then
the `DROP` record, and the operation ends (R191). -/
def raiseDrop (reason : DropReason) (cnt : Nat) (s : State) : State :=
  State.emit { s with lastDrop := reason.code } (.drop reason cnt)

/-- TAKING A COMMAND ERROR: `raise Err(code)`: `LASTERR`, then the `ERR` record with the command word, and nothing else
(R197). -/
def raiseErr (code : ErrCode) (word : Word) (s : State) : State :=
  State.emit { s with lastErr := code.code } (.err code word)

/-- The effect of reset on the ten elements of the block's state (R34, R180). The parameters and the two streams stay
(R181, R220). -/
def State.resetBlock (s : State) : State :=
  { s with
    buf := []
    iter := 0
    refresh := false
    prevMP := []
    prevSB := []
    prevMB := []
    prevMBD := []
    lastTag := 31
    lastDrop := 0
    lastErr := 0 }

/-- The hardware reset input: the effect of `RESET`, and the event stream is empty after it (R220). An act of the
host, no step of the block. -/
def State.hardwareReset (s : State) : State := { s.resetBlock with events := [] }

/-- Bringing a block up (R223): the host supplies every parameter, a set that breaks a constraint of R5 is refused, reset is
applied, and only then is there a state in which operations can be issued. An act of the host, no step of the block. -/
def boot (p : Params) : Option State := p.configure.map fun c => State.hardwareReset { State.reset with cfg := c }

/-- The host offers words at the end of the command stream (R79, R85). An act of the host, no step of the block. -/
def State.offer (s : State) (ws : List Word) : State := { s with input := s.input ++ ws }

end Sys2Proof.Machine
end

