-- ==== Sys2Proof/Machine/Flags.lean ====
section
/-! DEFINITION. Machine/Flags: the header tests, and the status registers computed from the state (R29, R103). The
block's one flag is `REFRESH` (R27, R28). -/

namespace Sys2Proof.Machine

/-- `BUF` holds a candidate: four octets, and the two markers in place (R103). -/
def isCandidate (b : Memory) : Bool :=
  decide (4 ≤ b.length) && b[0]? == some Config.start && b[3]? == some Config.start

/-- The two length octets agree (R105). -/
def lengthsAgree (b : Memory) : Bool := b[1]? == b[2]?

/-- `STATUS`: bit 0 `REFRESH`, bit 1 `BLEN > 0`, bit 2 `CAND`, bits 15:3 zero (R29). -/
def statusWord (s : State) : Word :=
  (0 : BitVec 13) ++ BitVec.ofBool (isCandidate s.buf && lengthsAgree s.buf) ++
    BitVec.ofBool (decide (0 < s.blen)) ++ BitVec.ofBool s.refresh

/-- `SR(r)`, the value of status register `r`; none for a reserved number (R29, R182). -/
def statusReg (s : State) (r : BitVec 4) : Option Word :=
  match r.toNat with
  | 0 => some s.cfg.blockId
  | 1 => some (statusWord s)
  | 2 => some (BitVec.ofNat 16 (min s.blen 65535))
  | 3 => some s.iter
  | 4 => some ((0 : BitVec 11) ++ s.lastTag)
  | 5 => some ((0 : BitVec 12) ++ s.lastDrop)
  | 6 => some ((0 : BitVec 12) ++ s.lastErr)
  | 8 => some (BitVec.ofNat 16 s.prevMP.length)
  | 9 => some (BitVec.ofNat 16 s.prevSB.length)
  | 10 => some (BitVec.ofNat 16 s.prevMB.length)
  | 11 => some (BitVec.ofNat 16 s.prevMBD.length)
  | _ => none

end Sys2Proof.Machine
end

