-- ==== Sys2Proof/Machine/BitDiff.lean ====
section
/-! DEFINITION. Machine/BitDiff: the comparator passes and the operations `DIFF` and `SETREF` (R150 to R164). -/

namespace Sys2Proof.Machine

/-- `full`: a refresh was requested, or the lengths differ (R154, R155, R157). -/
def fullRefresh (s : State) (g : Group) (new : List Bool) : Bool :=
  s.refresh || new.length != (s.prev g).length

/-- The event address `base + i`, computed exactly and written in `ADDR_W` bits (R162). -/
def eventAddress (base i : Nat) : Address := BitVec.ofNat Config.addrW (base + i)

/-- The records of a bitwise pass, ascending index (R154, R161). -/
def bitRecords (base : Nat) (g : Group) (full : Bool) (old new : List Bool) : List Event :=
  (List.range new.length).filterMap fun i =>
    if full || new[i]? != old[i]? then some (.ae g (eventAddress base i) (new.getD i false)) else none

/-- The records of the bytewise pass over `n` octets, ascending record index (R155, R161). -/
def byteRecords (base n : Nat) (full : Bool) (old new : List Bool) : List Event :=
  (List.range n).filterMap fun k =>
    if full || (new.drop (8 * k)).take 8 != (old.drop (8 * k)).take 8 then
      some (.sbe (eventAddress base k) (recordBits new k))
    else none

/-- `DiffBits(g, N)` (R154). -/
def diffBits (g : Group) (n : List Octet) (s : State) : State :=
  let new := snapshot n
  (s.emitAll (bitRecords (s.cfg.base g) g (fullRefresh s g new) (s.prev g) new)).setPrev g new

/-- `DiffSB(N)` (R155). -/
def diffSB (n : List Octet) (s : State) : State :=
  let new := snapshot n
  (s.emitAll (byteRecords (s.cfg.base .sb) n.length (fullRefresh s .sb new) (s.prev .sb) new)).setPrev .sb new

/-- The comparator pass of a group: `DiffSB` for `SB`, `DiffBits` for the others (R139, R150). -/
def diffPass (g : Group) (n : List Octet) (s : State) : State :=
  match g with
  | .sb => diffSB n s
  | .mp => diffBits .mp n s
  | .mb => diffBits .mb n s
  | .mbd => diffBits .mbd n s

/-- `DIFF g, N` (R150). -/
def execDiff (g : Group) (n : List Octet) (s : State) : Host.Outcome State Fault Refusal :=
  .next (diffPass g n s)

/-- `SETREF`: `REFRESH <- true` (R151). -/
def execSetref (s : State) : Host.Outcome State Fault Refusal := .next { s with refresh := true }

end Sys2Proof.Machine
end

