-- ==== Sys2Proof/Machine/Validity.lean ====
section
/-! DEFINITION. Machine/Validity: the check functions of R108 and what each value of the parameter `VALID` accepts. -/

namespace Sys2Proof.Machine

/-- `XOR8(U)`: the bytewise XOR, 0x00 for the empty sequence (R108). -/
def xor8 (u : List Octet) : Octet := u.foldl (fun acc o => acc ^^^ o) 0

/-- `SUM8(U)`: the sum modulo 256, 0x00 for the empty sequence (R108). -/
def sum8 (u : List Octet) : Octet := u.foldl (fun acc o => acc + o) 0

/-- One of the eight inner steps of `CRC8`: shift left, and XOR `poly` if bit 7 was 1 (R108). -/
def crcShift (poly crc : Octet) : Octet :=
  if crc.getLsbD 7 then (crc <<< 1) ^^^ poly else crc <<< 1

/-- The eight inner steps of `CRC8` for one octet (R108). -/
def crcOctet (poly crc o : Octet) : Octet :=
  (List.range 8).foldl (fun acc _ => crcShift poly acc) (crc ^^^ o)

/-- `CRC8(poly, init, xorout)(U)`, most significant bit first (R108). -/
def crc8 (poly init xorout : Octet) (u : List Octet) : Octet :=
  u.foldl (crcOctet poly) init ^^^ xorout

/-- The check octet `CKF(U)` (R108). -/
def checkOctet (f : CheckFn) (u : List Octet) : Octet :=
  match f with
  | .xor8 => xor8 u
  | .sum8 => sum8 u
  | .crc8 poly init xorout => crc8 poly init xorout u

/-- `VALID_CK(CKF, e)(F)` with `U = F[4 .. 3+L]`, `CK = F[4+L]`, `END = F[5+L]` and `L = len(F) - 6` (R107, R108). -/
def validCk (f : CheckFn) (e : Option Octet) (frame : List Octet) : Bool :=
  let n := frame.length - Config.overhead
  frame[4 + n]? == some (checkOctet f ((frame.drop 4).take n)) &&
  (match e with
   | none => true
   | some o => frame[5 + n]? == some o)

/-- `VALID(F)` (R5, R107, R108). -/
def validAccepts (v : Validity) (frame : List Octet) : Bool :=
  match v with
  | .ck f e => validCk f e frame
  | .unnamed => Config.openValid frame

end Sys2Proof.Machine
end

