-- ==== Sys2Proof/Machine/Classifier.lean ====
section
/-! DEFINITION. Machine/Classifier: the classification function, the demultiplexer's tables, the hand-off `Deliver` and
the operation `CLS` (R130 to R143). -/

namespace Sys2Proof.Machine

/-- `WellFormed(s)`, tested left to right (R74, R132). -/
def wellFormed (p : Params) (x : List Octet) : Bool :=
  decide (6 ≤ x.length) && x[0]? == some Config.start && x[3]? == some Config.start && x[1]? == x[2]? &&
    x.length == frameLength (lengthOctet x) && validAccepts p.valid x

/-- Every test `(s[k] AND mask[k]) = value[k]` of a row holds, and the sequence is long enough for them (R133). -/
def testsHold : List (Octet × Octet) → List Octet → Bool
  | [], _ => true
  | _ :: _, [] => false
  | (mask, value) :: ts, o :: os => (o &&& mask) == value && testsHold ts os

/-- `Match(row, s)` (R133). -/
def rowMatches (row : ClassRow) (x : List Octet) : Bool := testsHold row.tests x

/-- `Classify(s)`: `Invalid`, else the first matching row's tag, else `Unknown` (R131 to R134). -/
def classify (p : Params) (x : List Octet) : Tag :=
  if wellFormed p x then
    match p.classTable.find? fun row => rowMatches row x with
    | some row => row.tag
    | none => .unknown
  else .invalid

/-- `Dest(t)` (R137). -/
def destOf : Tag → Dest
  | .mpContacts => .diff
  | .sbStatus => .diff
  | .usedInputs => .discovery
  | .usedOutputs => .discovery
  | .usedContactsInfo => .discovery
  | .usedOutputContactsInfo => .discovery
  | .usedSbContactsInfo => .discovery
  | .usedMbContactsInfo => .discovery
  | .notUsedContact => .discovery
  | .sysIntArmed => .passthru
  | .sysExtArmed => .passthru
  | .sysDisarmed => .passthru
  | .alarm => .passthru
  | .intrusion => .passthru
  | .batteryMalfunction => .passthru
  | .powerOutage => .passthru
  | .opticalFlasherMalfunction => .passthru
  | .horn1Malfunction => .passthru
  | .horn2Malfunction => .passthru
  | .comFault => .passthru
  | .sendNorm => .flowctl
  | .confirmAck => .flowctl
  | .restart => .none
  | .unknown => .none
  | .invalid => .none

/-- `Hint(t)` (R138). -/
def hintOf : Tag → Hint
  | .sbStatus => .set
  | .usedOutputs => .set
  | .usedContactsInfo => .set
  | .usedOutputContactsInfo => .set
  | .usedSbContactsInfo => .set
  | .usedMbContactsInfo => .set
  | .restart => .set
  | .unknown => .set
  | .invalid => .set
  | .confirmAck => .clr
  | .sendNorm => .none
  | .mpContacts => .none
  | .sysIntArmed => .none
  | .sysExtArmed => .none
  | .sysDisarmed => .none
  | .alarm => .none
  | .intrusion => .none
  | .batteryMalfunction => .none
  | .powerOutage => .none
  | .opticalFlasherMalfunction => .none
  | .horn1Malfunction => .none
  | .horn2Malfunction => .none
  | .comFault => .none
  | .usedInputs => .none
  | .notUsedContact => .none

/-- The rows of `GROUP_MAP` for a tag, in table order (R139, R140). -/
def rowsFor (p : Params) (t : Tag) : List GroupRow := p.groupMap.filter fun row => row.tag == t

/-- One pass of `Deliver`: the row's octets of the user data go to the row's group (R139). -/
def deliverRow (u : List Octet) (s : State) (row : GroupRow) : State :=
  diffPass row.group (groupSlice row u) s

/-- `LASTTAG` and the `TG` record of a Telegram (R139). -/
def announce (frame : List Octet) (t : Tag) (s : State) : State :=
  State.emit { s with lastTag := t.code } (.tg t (hintOf t) (destOf t) frame)

/-- The last step of `Deliver`: an `SbStatus` Telegram clears `REFRESH` (R139, R159). -/
def settleRefresh (t : Tag) (s : State) : State :=
  if t = .sbStatus then { s with refresh := false } else s

/-- `Deliver(F)` (R139). -/
def deliver (frame : List Octet) (s : State) : State :=
  let t := classify s.cfg.toParams frame
  settleRefresh t ((rowsFor s.cfg.toParams t).foldl (deliverRow (userData frame)) (announce frame t s))

/-- `CLS x` (R130). -/
def execCls (x : List Octet) (s : State) : Host.Outcome State Fault Refusal :=
  let t := classify s.cfg.toParams x
  .next (s.emit (.clsr t (hintOf t) (destOf t)))

end Sys2Proof.Machine
end

