-- ==== Sys2Proof/Machine/Accumulator.lean ====
section
/-! DEFINITION. Machine/Accumulator: the Frame Accumulator and the operation `RX` (R100 to R116). -/

namespace Sys2Proof.Machine

/-- The five outcomes of a detection pass (R102); `emit` carries the frame. -/
inductive Detection where
  | wait
  | noCand
  | dropLen
  | dropCheck
  | emit (frame : List Octet)
  deriving DecidableEq, Repr

/-- The detection pass over `BUF` (R102 to R107, R109, R110). -/
def detect (p : Params) (b : Memory) : Detection :=
  if b.length < 4 then .wait
  else if !isCandidate b then .noCand
  else if !lengthsAgree b then .dropLen
  else
    match memRead b 0 (frameLength (lengthOctet b)) with
    | none => .wait
    | some frame => if validAccepts p.valid frame then .emit frame else .dropCheck

/-- The chunk does not fit: `BLEN + n > BUF_CAP` (R101). -/
def overflows (s : State) (c : List Octet) : Bool :=
  match s.cfg.bufCap with
  | none => false
  | some cap => decide (cap < s.blen + c.length)

/-- Step 4, the anti-runaway policy, where `k` is `ITER` after the count of step 2 (R111). The count is exact; where it
is kept it is below `ITER_MAX`, so its 16 bits never wrap (R10, R23). -/
def antiRunaway (k : Nat) (s : State) : State :=
  if s.cfg.iterMax ≤ k then
    if 0 < s.blen then raiseDrop .runaway s.blen s.clearBuffer else s.clearBuffer
  else { s with iter := BitVec.ofNat 16 k }

/-- Steps 3 and 4 of `RX`, on the state after the append, `k` being `ITER` after the count (R113). -/
def rxDetect (k : Nat) (s : State) : State :=
  match detect s.cfg.toParams s.buf with
  | .wait => antiRunaway k s
  | .noCand => antiRunaway k s
  | .dropLen => raiseDrop .lenMismatch s.blen s.clearBuffer
  | .dropCheck => raiseDrop .checkFail s.blen s.clearBuffer
  | .emit frame => deliver frame { s with buf := bufDrop s.buf frame.length, iter := 0 }

/-- `RX c`, the whole operation (R113). -/
def rx (c : List Octet) (s : State) : State :=
  if overflows s c then raiseDrop .overflow (s.blen + c.length) s.clearBuffer
  else rxDetect (s.iter.toNat + 1) (s.append c)

/-- `RX c` (R100, R113). -/
def execRx (c : List Octet) (s : State) : Host.Outcome State Fault Refusal := .next (rx c s)

end Sys2Proof.Machine
end

