-- ==== Sys2Proof/WellFormed.lean ====
section
/-! DEFINITION. WellFormed: which instructions a command word can carry: the number of data octets fits the count field
of the row (R80, R82, R83). -/

namespace Sys2Proof

/-- The octet counts of R80: at most 4095 for `RX` and `CLS`, at most 255 for `DIFF`. -/
def Instr.wf : Instr → Bool
  | .rx c => decide (c.length ≤ Config.chunkMax)
  | .cls x => decide (x.length ≤ 4095)
  | .diff _ n => decide (n.length ≤ 255)
  | .setref => true
  | .rds _ => true
  | .reset => true

end Sys2Proof
end

