-- ==== Sys2Proof/Decode.lean ====
section
/-! DEFINITION. Decode: from the words of the command stream to an operation, a refusal by name or "not given yet"
(R79 to R85, R196, R198), total on any words; then the encoder, from the same table. -/

namespace Sys2Proof

/-- The rows of the operation table by name (R80). -/
inductive Mnemonic where
  | rx | cls | diff | setref | rds | reset
  deriving DecidableEq, Repr

/-- A row of the operation table: a word selects it iff `(w AND mask) = value` (R80). -/
structure OpRow where
  op : Mnemonic
  value : Word
  mask : Word
  deriving DecidableEq, Repr

/-- The operation table, columns `match` and `mask` (R80, spec/opcode_table.json). -/
def opTable : List OpRow :=
  [ ⟨.rx,     0x1000, 0xF000⟩,
    ⟨.cls,    0x2000, 0xF000⟩,
    ⟨.diff,   0x3000, 0xFC00⟩,
    ⟨.setref, 0x4000, 0xFFFF⟩,
    ⟨.rds,    0x5000, 0xFFF0⟩,
    ⟨.reset,  0xF000, 0xFFFF⟩ ]

/-- `w` selects the row `r` (R80). -/
def OpRow.selects (r : OpRow) (w : Word) : Bool := (w &&& r.mask) == r.value

/-- The row a command word selects, if any (R80). -/
def selectRow (w : Word) : Option Mnemonic := (opTable.find? fun r => r.selects w).map OpRow.op

/-- `op = bits[15:12]` (R79). -/
def opField (w : Word) : BitVec 4 := w.extractLsb' 12 4

/-- `arg = bits[11:0]` (R79). -/
def argField (w : Word) : BitVec 12 := w.extractLsb' 0 12

/-- `arg[9:8]`, the group of `DIFF` (R81). -/
def groupField (w : Word) : BitVec 2 := w.extractLsb' 8 2

/-- `arg[7:0]`, the count of `DIFF` (R81). -/
def diffCountField (w : Word) : BitVec 8 := w.extractLsb' 0 8

/-- `arg[3:0]`, the register of `RDS` (R81). -/
def regField (w : Word) : BitVec 4 := w.extractLsb' 0 4

/-- The operations that exist: every other `op` is illegal (R84 (a)). -/
def legalOp (op : BitVec 4) : Bool :=
  op == 1 || op == 2 || op == 3 || op == 4 || op == 5 || op == 15

/-- n, the number of data words that follow a command word, told by that word alone (R81, R85). A `DIFF` word with
`arg[11:10] != 0` has its `arg[7:0]` data words too (R84 (b)). -/
def dataCount (w : Word) : Nat :=
  if opField w = 1 ∨ opField w = 2 then (argField w).toNat
  else if opField w = 3 then (diffCountField w).toNat
  else 0

/-- The octet a data word carries; none where `bits[15:8] != 0` (R79, R84 (c)). -/
def dataOctet (w : Word) : Option Octet :=
  if w.extractLsb' 8 8 = 0 then some (w.extractLsb' 0 8) else none

/-- The octets of a list of data words, in stream order; none if one of them is bad (R81, R84 (c)). -/
def dataOctets : List Word → Option (List Octet)
  | [] => some []
  | w :: ws =>
    match dataOctet w, dataOctets ws with
    | some o, some os => some (o :: os)
    | _, _ => none

/-- Operand assembly (R81): the operation of a selected row; none where a data word is bad. -/
def assemble (m : Mnemonic) (w : Word) (data : List Word) : Option Instr :=
  match m with
  | .rx => (dataOctets data).map .rx
  | .cls => (dataOctets data).map .cls
  | .diff => (dataOctets data).map (.diff (Group.ofCode (groupField w)))
  | .setref => some .setref
  | .rds => some (.rds (regField w))
  | .reset => some .reset

/-- What the head of the command stream holds. -/
inductive Decoded where
  /-- The stream ends before the operation's `1 + n` words are there (R85). -/
  | wait
  /-- An operation, and the words after it. -/
  | instr (i : Instr) (rest : List Word)
  /-- A refused operation: its error name, its command word, and the words after it (R84, R197). -/
  | bad (code : ErrCode) (word : Word) (rest : List Word)
  deriving DecidableEq, Repr

/-- The command error of a word that selects no row: `ILLEGAL_OP` by `op` alone, else reserved `arg` bits
(R84, R198). -/
def rowError (w : Word) : ErrCode := if legalOp (opField w) then .badOperand else .illegalOp

/-- Decoding the head of the command stream (R80, R84, R85, R198). -/
def decode : List Word → Decoded
  | [] => .wait
  | w :: rest =>
    if rest.length < dataCount w then .wait
    else
      match selectRow w with
      | none => .bad (rowError w) w (rest.drop (dataCount w))
      | some m =>
        match assemble m w (rest.take (dataCount w)) with
        | none => .bad .badData w (rest.drop (dataCount w))
        | some i => .instr i (rest.drop (dataCount w))

/-- A data word: `bits[15:8] = 0`, `bits[7:0]` the octet (R79). -/
def dataWord (o : Octet) : Word := (0 : BitVec 8) ++ o

/-- The command word of an operation, field by field (R80). -/
def commandWord : Instr → Word
  | .rx c => (1 : BitVec 4) ++ BitVec.ofNat 12 c.length
  | .cls x => (2 : BitVec 4) ++ BitVec.ofNat 12 x.length
  | .diff g n => (3 : BitVec 4) ++ (0 : BitVec 2) ++ g.code ++ BitVec.ofNat 8 n.length
  | .setref => (4 : BitVec 4) ++ (0 : BitVec 12)
  | .rds r => (5 : BitVec 4) ++ (0 : BitVec 8) ++ r
  | .reset => (15 : BitVec 4) ++ (0 : BitVec 12)

/-- The data octets of an operation (R80). -/
def dataOf : Instr → List Octet
  | .rx c => c
  | .cls x => x
  | .diff _ n => n
  | .setref => []
  | .rds _ => []
  | .reset => []

/-- The words of an operation on the command stream: the command word, then the data words (R79, R80). -/
def encode (i : Instr) : List Word := commandWord i :: (dataOf i).map dataWord

/-- The first `k` words of the number `v`, least significant first. -/
def wordsOf : Nat → Nat → List Word
  | 0, _ => []
  | k + 1, v => BitVec.ofNat 16 v :: wordsOf k (v / 65536)

/-- The words of the instruction whose bits below `nbits` are those of `w` and whose other bits are zero: as many as
its first word says (R85). -/
def tableWords (nbits w : Nat) : List Word :=
  wordsOf (1 + dataCount (BitVec.ofNat 16 (w % 2 ^ nbits))) (w % 2 ^ nbits)

/-- What the decoder reads from an instruction given as a number, bits counted as spec/opcode_table.json counts them. -/
def decodeTableWord (nbits w : Nat) : Option Instr :=
  match decode (tableWords nbits w) with
  | .instr i _ => some i
  | .bad _ _ _ => none
  | .wait => none

end Sys2Proof
end

