-- ==== Sys2Proof/Machine/System.lean ====
section
/-! DEFINITION. Machine/System: the operations `RDS` and `RESET` (R180 to R183). -/

namespace Sys2Proof.Machine

/-- `RDS r`: the value of the register, or `Err(BAD_OPERAND)` for a reserved number (R84 (b), R182). -/
def execRds (r : BitVec 4) (s : State) : Host.Outcome State Fault Refusal :=
  match statusReg s r with
  | some v => .next (s.emit (.csrv r v))
  | none => .next (raiseErr .badOperand (commandWord (.rds r)) s)

/-- `RESET` (R180, R181). -/
def execReset (s : State) : Host.Outcome State Fault Refusal := .next s.resetBlock

end Sys2Proof.Machine
end

