-- ==== Sys2Proof/Machine/Dispatch.lean ====
section
/-! DEFINITION. Machine/Dispatch: one arm per operation of the table, each one call of its meaning. -/

namespace Sys2Proof.Machine

/-- The meaning of an operation (R80). -/
def exec (i : Instr) (s : State) : Host.Outcome State Fault Refusal :=
  match i with
  | .rx c => Sys2Proof.Machine.execRx c s
  | .cls x => Sys2Proof.Machine.execCls x s
  | .diff g n => Sys2Proof.Machine.execDiff g n s
  | .setref => Sys2Proof.Machine.execSetref s
  | .rds r => Sys2Proof.Machine.execRds r s
  | .reset => Sys2Proof.Machine.execReset s

end Sys2Proof.Machine
end

