-- ==== Sys2Proof/Machine/Step.lean ====
section
/-! DEFINITION. Machine/Step: one step takes the operation at the head of the command stream (R6, R30, R80). -/

namespace Sys2Proof.Machine

/-- One step (R6, R79, R84, R85): the words of one operation are consumed and it is executed, or refused by
`raise Err`; while the stream does not hold all of its words "the block waits and does nothing", which is a step that
changes nothing (assumption 4). -/
def step (s : State) : Host.Outcome State Fault Refusal :=
  match decode s.input with
  | .wait => .next s
  | .instr i rest => exec i { s with input := rest }
  | .bad code word rest => .next (raiseErr code word { s with input := rest })

/-- `s` with the instruction's words at the head of the command stream, where the next step takes its operation. -/
def State.withFetchWord (s : State) (nbits w : Nat) : State := { s with input := tableWords nbits w ++ s.input }

end Sys2Proof.Machine
end

