-- ==== Sys2Proof/Machine/Assembler.lean ====
section
/-! DEFINITION. Machine/Assembler: the textual form of the operations and the pseudo-operations (R88, R89), as functions
from text to operations. No operation of the block reads text; a host writes its command words with it. -/

namespace Sys2Proof.Machine

/-- `RX1 o0 .. o(n-1)`: one octet per read iteration (R89). -/
def rx1 (os : List Octet) : List Instr := os.map fun o => .rx [o]

/-- `IDLE k`: k empty read iterations (R89). -/
def idle (k : Nat) : List Instr := List.replicate k (.rx [])

/-- `FRAME(u)`: the octets `68 L L 68 u CK END`; defined only when `VALID` is `VALID_CK(CKF, e)`, with `END = END_OCTET`,
`CK = CKF(u)` (R89), at most 255 octets of user data (R71), and an `e` that `END_OCTET` satisfies, since `CK` is to be
the octet for which `VALID` holds. -/
def frameOf (p : Params) (u : List Octet) : Option (List Octet) :=
  match p.valid with
  | .unnamed => none
  | .ck f e =>
    if u.length ≤ 255 ∧ (e = none ∨ e = some p.endOctet) then
      some ([Config.start, BitVec.ofNat 8 u.length, BitVec.ofNat 8 u.length, Config.start] ++ u ++
        [checkOctet f u, p.endOctet])
    else none

/-- The value of a hexadecimal digit. -/
def hexValue (c : Char) : Option Nat :=
  let n := c.toNat
  if 48 ≤ n ∧ n ≤ 57 then some (n - 48)
  else if 65 ≤ n ∧ n ≤ 70 then some (n - 55)
  else if 97 ≤ n ∧ n ≤ 102 then some (n - 87)
  else none

/-- "Octets are two hex digits" (R88). -/
def octetOf : List Char → Option Octet
  | [h, l] =>
    match hexValue h, hexValue l with
    | some a, some b => some (BitVec.ofNat 8 (16 * a + b))
    | _, _ => none
  | _ => none

/-- Octets "separated by spaces" (R88): every token is an octet. -/
def octetsOf : List (List Char) → Option (List Octet)
  | [] => some []
  | t :: ts =>
    match octetOf t, octetsOf ts with
    | some o, some os => some (o :: os)
    | _, _ => none

/-- An octet list, or `FRAME( .. )` in the place of one (R88, R89). -/
def octetListOf (p : Params) (ts : List (List Char)) : Option (List Octet) :=
  match ts with
  | [] => some []
  | t :: rest =>
    if t == "FRAME".toList then
      if rest.head? == some "(".toList && rest.getLast? == some ")".toList && decide (2 ≤ rest.length) then
        match octetsOf (rest.tail.dropLast) with
        | some u => frameOf p u
        | none => none
      else none
    else octetsOf (t :: rest)

/-- The digits of a decimal number, after digits of value `acc`. -/
def decimalFrom (acc : Nat) : List Char → Option Nat
  | [] => some acc
  | c :: cs => if 48 ≤ c.toNat ∧ c.toNat ≤ 57 then decimalFrom (10 * acc + (c.toNat - 48)) cs else none

/-- A non-empty decimal number. The spec does not say the radix of a number in the text, and decimal is the model's choice:
of a register number and of the k of `IDLE` (assumption 12). -/
def decimalOf (t : List Char) : Option Nat := if t.isEmpty then none else decimalFrom 0 t

/-- The group names of `DIFF` (R78, R88). -/
def groupOf (t : List Char) : Option Group :=
  if t == "MP".toList then some .mp
  else if t == "SB".toList then some .sb
  else if t == "MB".toList then some .mb
  else if t == "MBD".toList then some .mbd
  else none

/-- The register names of `RDS` and their numbers (R29, R88). -/
def regNames : List (List Char × BitVec 4) :=
  [ ("ID".toList, 0), ("STATUS".toList, 1), ("BLEN".toList, 2), ("ITER".toList, 3), ("LASTTAG".toList, 4),
    ("LASTDROP".toList, 5), ("LASTERR".toList, 6), ("PLEN_MP".toList, 8), ("PLEN_SB".toList, 9),
    ("PLEN_MB".toList, 10), ("PLEN_MBD".toList, 11) ]

/-- A register by name or by number (R88). -/
def regOf (t : List Char) : Option (BitVec 4) :=
  match regNames.find? fun row => row.1 == t with
  | some row => some row.2
  | none =>
    match decimalOf t with
    | some n => if n < 16 then some (BitVec.ofNat 4 n) else none
    | none => none

/-- Put a finished token before the others. -/
def pushToken (cur : List Char) (ts : List (List Char)) : List (List Char) := if cur.isEmpty then ts else cur :: ts

/-- The tokens of a line: separated by blanks, `,` `(` `)` tokens of their own, `;` starts a comment (R88). -/
def tokensFrom (cur : List Char) : List Char → List (List Char)
  | [] => pushToken cur []
  | c :: cs =>
    if c = ';' then pushToken cur []
    else if c = ' ' ∨ c = '\t' ∨ c = '\r' then pushToken cur (tokensFrom [] cs)
    else if c = ',' ∨ c = '(' ∨ c = ')' then pushToken cur ([c] :: tokensFrom [] cs)
    else tokensFrom (cur ++ [c]) cs

/-- One operation that its command word can carry. -/
def oneOp (i : Instr) : Option (List Instr) := if i.wf then some [i] else none

/-- The operations of one line; an empty line or a comment has none (R88, R89). The k of `IDLE k` is read as a decimal
number, the model's choice (assumption 12). -/
def assembleTokens (p : Params) (ts : List (List Char)) : Option (List Instr) :=
  match ts with
  | [] => some []
  | t :: rest =>
    if t == "RX".toList then (octetListOf p rest).bind fun c => oneOp (.rx c)
    else if t == "CLS".toList then (octetListOf p rest).bind fun x => oneOp (.cls x)
    else if t == "DIFF".toList then
      match rest with
      | g :: comma :: ns =>
        if comma == ",".toList then
          (groupOf g).bind fun g' => (octetListOf p ns).bind fun n => oneOp (.diff g' n)
        else none
      | _ => none
    else if t == "SETREF".toList then (if rest.isEmpty then some [.setref] else none)
    else if t == "RDS".toList then
      match rest with
      | [r] => (regOf r).map fun r' => [.rds r']
      | _ => none
    else if t == "RESET".toList then (if rest.isEmpty then some [.reset] else none)
    else if t == "RX1".toList then (octetListOf p rest).map rx1
    else if t == "IDLE".toList then
      match rest with
      | [k] => (decimalOf k).map idle
      | _ => none
    else none

/-- The lines of a text. -/
def linesFrom (cur : List Char) : List Char → List (List Char)
  | [] => [cur]
  | c :: cs => if c = '\n' then cur :: linesFrom [] cs else linesFrom (cur ++ [c]) cs

/-- The operations of some lines, in order; none if a line is not of the syntax. -/
def assembleLines (p : Params) : List (List Char) → Option (List Instr)
  | [] => some []
  | l :: ls =>
    match assembleTokens p (tokensFrom [] l), assembleLines p ls with
    | some is, some js => some (is ++ js)
    | _, _ => none

/-- The operations of a program text, "one per line" (R88). -/
def assembleText (p : Params) (text : List Char) : Option (List Instr) := assembleLines p (linesFrom [] text)

/-- The command words of a program (R79). -/
def programWords (is : List Instr) : List Word := is.flatMap encode

end Sys2Proof.Machine
end

