-- ==== Sys2Proof/Machine/Records.lean ====
section
/-! DEFINITION. Machine/Records: the bit layout of the event records as 32-bit words (R87). -/

namespace Sys2Proof.Machine

/-- The kind-2 words of a `TG` record: `[16:8] i`, `[7:0] raw[i]`, for i from `i` on (R87). -/
def telegramData : Nat → List Octet → List EventWord
  | _, [] => []
  | i, o :: os => ((2 : BitVec 4) ++ (0 : BitVec 11) ++ BitVec.ofNat 9 i ++ o) :: telegramData (i + 1) os

/-- The words of a record (R87). The drop count saturates at 65535 (R10, R87). -/
def Event.layout : Event → List EventWord
  | .tg t h d raw =>
    ((1 : BitVec 4) ++ t.code ++ h.code ++ d.code ++ (0 : BitVec 9) ++ BitVec.ofNat 9 raw.length) ::
      telegramData 0 raw
  | .ae g a v => [(3 : BitVec 4) ++ g.code ++ (0 : BitVec 9) ++ BitVec.ofBool v ++ a]
  | .sbe a bits => [(4 : BitVec 4) ++ (0 : BitVec 4) ++ bits ++ a]
  | .drop r n => [(5 : BitVec 4) ++ r.code ++ (0 : BitVec 8) ++ BitVec.ofNat 16 (min n 65535)]
  | .clsr t h d => [(6 : BitVec 4) ++ t.code ++ h.code ++ d.code ++ (0 : BitVec 18)]
  | .csrv r v => [(7 : BitVec 4) ++ r ++ (0 : BitVec 8) ++ v]
  | .err c w => [(8 : BitVec 4) ++ c.code ++ (0 : BitVec 8) ++ w]

/-- The event stream as the host reads it word by word (R86, R87). -/
def State.eventWords (s : State) : List EventWord := s.events.flatMap Event.layout

end Sys2Proof.Machine
end

