-- ==== Sys2Proof/Safety.lean ====
section
/-! DEFINITION. Safety: what holds between any two operations (R35), in the terms the statements use. -/

namespace Sys2Proof

open Machine

/-- `BLEN <= BUF_CAP`, always true of an unbounded buffer (R22, R35). -/
def Machine.State.fitsCapacity (s : State) : Prop := ∀ cap, s.cfg.bufCap = some cap → s.buf.length ≤ cap

/-- The invariants of R35, with the code ranges of the status registers (R29, R190, R196). -/
structure Machine.State.Inv (s : State) : Prop where
  /-- `BLEN <= BUF_CAP`. -/
  capacity : s.fitsCapacity
  /-- `0 <= ITER < ITER_MAX`. -/
  iterBelowMax : s.iter.toNat < s.cfg.iterMax
  /-- Every `PLEN[g]` is a multiple of 8 and at most 2040. -/
  snapshotLengths : ∀ g, (s.prev g).length % 8 = 0 ∧ (s.prev g).length ≤ 2040
  /-- `LASTTAG` is 31 or a tag code other than 24. -/
  lastTagLegal : s.lastTag = 31 ∨ ∃ t : Tag, t ≠ .invalid ∧ s.lastTag = t.code
  /-- `LASTDROP` is 0 or a reason code. -/
  lastDropLegal : s.lastDrop = 0 ∨ ∃ r : DropReason, s.lastDrop = r.code
  /-- `LASTERR` is 0 or an error code. -/
  lastErrLegal : s.lastErr = 0 ∨ ∃ c : ErrCode, s.lastErr = c.code

end Sys2Proof
end

