-- ==== Sys2Proof/Certificates/Slice0/Obligations.lean ====
section
/-! DEFINITION. Certificates/Slice0/Obligations: the statements for the provers. The predicates of `Sys2Proof.Spec` say
what the spec's rules say in terms of octets, indices and numbers; the statements compare the machine with them. -/

namespace Sys2Proof.Spec

open Machine

/-- The records a step appended to the event stream. -/
def newRecords (s t : State) : List Event := t.events.drop s.events.length

/-- The chunk fits: not `BLEN + n > BUF_CAP` (R101). -/
def Fits (s : State) (chunk : List Octet) : Prop :=
  ∀ cap, s.cfg.bufCap = some cap → s.buf.length + chunk.length ≤ cap

/-- `BUF` holds a candidate (R103). -/
abbrev Candidate (b : List Octet) : Prop := 4 ≤ b.length ∧ b.getD 0 0 = 0x68 ∧ b.getD 3 0 = 0x68

/-- The two length octets of a buffer of four octets or more are equal (R105). -/
abbrev LengthsAgree (b : List Octet) : Prop := b.getD 1 0 = b.getD 2 0

/-- `FL` of a buffer that holds a candidate with agreeing length octets: L + 6 (R71, R106). -/
abbrev totalLength (b : List Octet) : Nat := (b.getD 1 0).toNat + 6

/-- The outcome of the detection pass is `WAIT` (R103, R106). -/
def Waits (b : List Octet) : Prop :=
  b.length < 4 ∨ (Candidate b ∧ LengthsAgree b ∧ b.length < totalLength b)

/-- The outcome of the detection pass is `NOCAND` (R104). -/
def NotCandidate (b : List Octet) : Prop := 4 ≤ b.length ∧ ¬ Candidate b

/-- A complete candidate frame is at the head of the buffer (R106). -/
def Complete (b : List Octet) : Prop := Candidate b ∧ LengthsAgree b ∧ totalLength b ≤ b.length

/-- A frame but for its validity: header, and `len(F) = L + 6` (R70, R74). -/
def FrameShape (x : List Octet) : Prop :=
  x.getD 0 0 = 0x68 ∧ x.getD 3 0 = 0x68 ∧ x.getD 1 0 = x.getD 2 0 ∧ x.length = totalLength x

/-- A well-formed frame (R74). -/
def WellFormedFrame (v : Validity) (x : List Octet) : Prop := FrameShape x ∧ validAccepts v x = true

/-- `Match(row, s)` (R133). -/
def RowMatches (row : ClassRow) (x : List Octet) : Prop :=
  row.tests.length ≤ x.length ∧ ∀ k m v, row.tests[k]? = some (m, v) → x.getD k 0 &&& m = v

/-- `t` is the tag of `x`: `Invalid` if malformed, else the tag of the first matching row, else `Unknown`
(R131, R132, R133, R134). -/
def HasTag (p : Params) (x : List Octet) (t : Tag) : Prop :=
  (¬ WellFormedFrame p.valid x ∧ t = .invalid) ∨
  (WellFormedFrame p.valid x ∧ ∃ before row after, p.classTable = before ++ row :: after ∧
    (∀ r ∈ before, ¬ RowMatches r x) ∧ RowMatches row x ∧ t = row.tag) ∨
  (WellFormedFrame p.valid x ∧ (∀ r ∈ p.classTable, ¬ RowMatches r x) ∧ t = .unknown)

/-- Bit i of the snapshot of octets `N`: bit `i mod 8` of octet `i div 8` (R153). -/
def bitOf (octets : List Octet) (i : Nat) : Bool := (octets.getD (i / 8) 0).getLsbD (i % 8)

/-- The snapshot of octets `N` (R153). -/
def bitsOf (octets : List Octet) : List Bool := (List.range (8 * octets.length)).map (bitOf octets)

/-- Every index is to be emitted: a refresh, or a length change (R154, R155, R157). -/
def Full (s : State) (g : Group) (octets : List Octet) : Prop :=
  s.refresh = true ∨ 8 * octets.length ≠ (s.prev g).length

/-- An event address: base plus index, in 16 bits (R162). -/
def at16 (base i : Nat) : BitVec 16 := BitVec.ofNat 16 (base + i)

/-- The octets of a `GROUP_MAP` row in user data `u`: `cnt` octets from `off`, clipped to what is there (R140). -/
def rowOctets (row : GroupRow) (u : List Octet) : List Octet := (u.drop row.off.toNat).take row.cnt.toNat

/-- `DIFF` operations, one for each row, in order (R139). -/
def runPasses (u : List Octet) : List GroupRow → State → Host.Outcome State Fault Refusal
  | [], s => .next s
  | row :: rows, s =>
    match exec (.diff row.group (rowOctets row u)) s with
    | .next t => runPasses u rows t
    | o => o

/-- `RX` operations, one for each chunk, in order (R115). -/
def feed : List (List Octet) → State → Host.Outcome State Fault Refusal
  | [], s => .next s
  | chunk :: chunks, s =>
    match exec (.rx chunk) s with
    | .next t => feed chunks t
    | o => o

/-- A record that ends the gathering of a frame: a Telegram or a drop (R100). -/
def endsFrame : Event → Bool
  | .tg _ _ _ _ => true
  | .drop _ _ => true
  | .ae _ _ _ => false
  | .sbe _ _ => false
  | .clsr _ _ _ => false
  | .csrv _ _ => false
  | .err _ _ => false

/-- n of a command word, as R81 and R85 read it. -/
def dataWords (w : Word) : Nat :=
  if w.toNat / 4096 = 1 ∨ w.toNat / 4096 = 2 then w.toNat % 4096
  else if w.toNat / 4096 = 3 then w.toNat % 256
  else 0

/-- The operation of word `w` and data words `data` is refused with `code` (R84 (a), (b), (c)). -/
def RefusedWith (w : Word) (data : List Word) : ErrCode → Prop
  | .illegalOp => w.toNat / 4096 ∈ [0, 6, 7, 8, 9, 10, 11, 12, 13, 14]
  | .badOperand =>
    (w.toNat / 4096 = 3 ∧ w.toNat / 1024 % 4 ≠ 0) ∨
    (w.toNat / 4096 = 4 ∧ w.toNat % 4096 ≠ 0) ∨
    (w.toNat / 4096 = 15 ∧ w.toNat % 4096 ≠ 0) ∨
    (w.toNat / 4096 = 5 ∧ (w.toNat % 4096 / 16 ≠ 0 ∨ w.toNat % 16 ∈ [7, 12, 13, 14, 15]))
  | .badData =>
    (w.toNat / 4096 = 1 ∨ w.toNat / 4096 = 2 ∨ w.toNat / 1024 = 12) ∧ ∃ d ∈ data, d.toNat / 256 ≠ 0

/-- The value of a status register (R29). -/
def RegValue (s : State) (r : BitVec 4) (v : Word) : Prop :=
  (r = 0 ∧ v = s.cfg.blockId) ∨
  (r = 1 ∧ v.toNat = (if s.refresh then 1 else 0) + (if 0 < s.buf.length then 2 else 0) +
    (if Candidate s.buf ∧ LengthsAgree s.buf then 4 else 0)) ∨
  (r = 2 ∧ v.toNat = min s.buf.length 65535) ∨
  (r = 3 ∧ v.toNat = s.iter.toNat) ∨
  (r = 4 ∧ v.toNat = s.lastTag.toNat) ∨
  (r = 5 ∧ v.toNat = s.lastDrop.toNat) ∨
  (r = 6 ∧ v.toNat = s.lastErr.toNat) ∨
  (r = 8 ∧ v.toNat = (s.prev .mp).length) ∨
  (r = 9 ∧ v.toNat = (s.prev .sb).length) ∨
  (r = 10 ∧ v.toNat = (s.prev .mb).length) ∨
  (r = 11 ∧ v.toNat = (s.prev .mbd).length)

/-- The register numbers `RDS` may read (R182). -/
def legalRegs : List (BitVec 4) := [0, 1, 2, 3, 4, 5, 6, 8, 9, 10, 11]

/-- A parameter set that meets the constraints of R5, R133 and R140: the range of `ITER_MAX`, the least `BUF_CAP`, no event
address that could wrap, 1 to 261 tests in a row of `CLASS_TABLE`, no row for `Unknown` or `Invalid` in either table, and
at most one row of `GROUP_MAP` for each pair of a tag and a group. -/
def LegalParams (p : Params) : Prop :=
  1 ≤ p.iterMax ∧ p.iterMax ≤ 65535 ∧ (∀ cap, p.bufCap = some cap → 261 ≤ cap) ∧
  p.baseMP + 2040 < 65536 ∧ p.baseSB + 2040 < 65536 ∧ p.baseMB + 2040 < 65536 ∧ p.baseMBD + 2040 < 65536 ∧
  (∀ row ∈ p.classTable, 1 ≤ row.tests.length ∧ row.tests.length ≤ 261 ∧ row.tag ≠ .unknown ∧ row.tag ≠ .invalid) ∧
  (∀ row ∈ p.groupMap, row.tag ≠ .unknown ∧ row.tag ≠ .invalid) ∧
  (∀ (j k : Nat) (q r : GroupRow), p.groupMap[j]? = some q → p.groupMap[k]? = some r →
    q.tag = r.tag → q.group = r.group → j = k)

/-- A record whose fields fit the bit layout of R87: at most 511 octets of `raw` (a frame has at most 261) and a drop
count below the saturation of R10. -/
def FitsLayout : Event → Prop
  | .tg _ _ _ raw => raw.length ≤ 511
  | .drop _ n => n ≤ 65535
  | .ae _ _ _ => True
  | .sbe _ _ => True
  | .clsr _ _ _ => True
  | .csrv _ _ => True
  | .err _ _ => True

end Sys2Proof.Spec

open Sys2Proof Sys2Proof.Machine Sys2Proof.Spec

/-! ## Encoding -/

/-- Every well-formed operation, with every operand, is read back from its words, whatever follows (R80, R81). -/
def Obligations.EncodedOperationsDecodeBack : Prop :=
  ∀ (i : Instr) (rest : List Word), i.wf = true → decode (encode i ++ rest) = .instr i rest

/-- Every operation the decoder reads is well formed, and the words it was read from are its encoding (R80, R85). -/
def Obligations.DecodedWordsAreTheEncoding : Prop :=
  ∀ (ws rest : List Word) (i : Instr), decode ws = .instr i rest → i.wf = true ∧ ws = encode i ++ rest

/-- Words of the spec's vectors, with the word that follows in the same vector where one does, decode to the operations
they stand for (spec 95 sections 2.3, 2.4, 2.5 and 3, program P1). -/
def Obligations.SpecWordsDecodeAsListed : Prop :=
  decode [0x1002, 0x0068, 0x0002, 0x1003] = .instr (.rx [0x68, 0x02]) [0x1003] ∧
  decode [0x2000] = .instr (.cls []) [] ∧
  decode [0x2006, 0x0068, 0x0000, 0x0000, 0x0068, 0x0000, 0x0016] = .instr (.cls [0x68, 0, 0, 0x68, 0, 0x16]) [] ∧
  decode [0x3202, 0x0081, 0x0000] = .instr (.diff .mb [0x81, 0x00]) [] ∧
  decode [0x4000] = .instr .setref [] ∧
  decode [0x5009] = .instr (.rds 9) [] ∧
  decode [0xF000, 0x5002] = .instr .reset [0x5002] ∧
  decode [0x3401, 0x0000] = .bad .badOperand 0x3401 []

/-- No word selects two rows of the operation table (R80). -/
def Obligations.TableRowsAreDisjoint : Prop :=
  ∀ (w : Word) (q r : OpRow), q ∈ opTable → r ∈ opTable → q.selects w = true → r.selects w = true → q = r

/-- Two records that fit the bit layout (a `raw` of at most 511 octets, a drop count of at most 65535) and have the same
32-bit words are the same record (R87); and a `DROP` record of any count is one word, in which the count saturates at 65535
(R10, R87), so counts above it share their word. -/
def Obligations.EventLayoutDeterminesTheRecord : Prop :=
  (∀ d e : Event, FitsLayout d → FitsLayout e → d.layout = e.layout → d = e) ∧
  (∀ (reason : DropReason) (n : Nat), ∃ w, Event.layout (.drop reason n) = [w] ∧
    w.toNat = 5 * 2 ^ 28 + reason.code.toNat * 2 ^ 24 + min n 65535)

/-- The hex-text has two characters an octet, and determines the octets (R22, R52). -/
def Obligations.HexTextDeterminesTheOctets : Prop :=
  ∀ a b : List Octet, (hexText a).length = 2 * a.length ∧ (hexText a = hexText b → a = b)

/-! ## The step -/

/-- A step executes the operation decoded at the head of the command stream, on the state with its words consumed
(R6, R80). -/
def Obligations.StepExecutesTheDecodedOperation : Prop :=
  ∀ (s : State) (i : Instr) (rest : List Word), decode s.input = .instr i rest →
    step s = exec i { s with input := rest }

/-- The length of an operation is told by its first word; with all its words there, exactly they are consumed (R85); and
with fewer, none at all included, the step answers the same state. The last is the model's choice (log entry 4): R85 says
that the block waits and does nothing, with no step, and does not speak of an empty stream. -/
def Obligations.FirstWordTellsTheLength : Prop :=
  (∀ s : State, s.input = [] → step s = .next s) ∧
  (∀ (s : State) (w : Word) (rest : List Word), s.input = w :: rest → rest.length < dataWords w → step s = .next s) ∧
  (∀ (s t : State) (w : Word) (data rest : List Word), s.input = w :: (data ++ rest) → data.length = dataWords w →
    step s = .next t → t.input = rest)

/-- R84 and R197: the refused command words, by name: the operation's words are consumed, `LASTERR` and the `ERR` record
are written, and nothing else. -/
def Obligations.RefusedOperationsOnlyReport : Prop :=
  ∀ (s : State) (w : Word) (data rest : List Word) (code : ErrCode),
    s.input = w :: (data ++ rest) → data.length = dataWords w → RefusedWith w data code →
    step s = .next { s with input := rest, lastErr := code.code, events := s.events ++ [.err code w] }

/-- Every step answers a next state; an `RX` appends nothing, or one `DROP`, or one `TG` with address records after it; and
a stream that holds a word waits only for data words withheld (R202). That a step that only waits answers a next state is
the model's choice (log entry 4), and that a refused command word is a next state and that nothing stops the machine are
its readings (log entries 8 and 18): R202 speaks of operations, and R197 calls a refused operation a refusal. -/
def Obligations.EveryStepAnswers : Prop :=
  (∀ s : State, ∃ t, step s = .next t) ∧
  (∀ (s t : State) (c : List Octet), exec (.rx c) s = .next t →
    newRecords s t = [] ∨ (∃ reason n, newRecords s t = [.drop reason n]) ∨
    (∃ tag h d raw recs, newRecords s t = .tg tag h d raw :: recs ∧ ∀ e ∈ recs, endsFrame e = false ∧
      ((∃ g a v, e = .ae g a v) ∨ ∃ a b, e = .sbe a b))) ∧
  (∀ (s : State) (w : Word) (rest : List Word), s.input = w :: rest → decode s.input = .wait →
    0 < dataWords w ∧ rest.length < dataWords w)

/-- Words that come later in the stream change nothing of an operation that is already there in full (R60 (a), R85). -/
def Obligations.LaterWordsDoNotMatter : Prop :=
  ∀ (s t : State) (more : List Word), decode s.input ≠ .wait → step s = .next t →
    step { s with input := s.input ++ more } = .next { t with input := t.input ++ more }

/-- No step writes a parameter: `RESET` does not (R181), and no other operation does (R5, R21). -/
def Obligations.ParametersNeverChange : Prop :=
  (∀ s t : State, exec .reset s = .next t → t.cfg = s.cfg) ∧ (∀ s t : State, step s = .next t → t.cfg = s.cfg)

/-- The event stream only grows: a step keeps every record emitted before it, in order (R21, R60). -/
def Obligations.EventStreamOnlyGrows : Prop :=
  ∀ s t : State, step s = .next t → t.events = s.events ++ newRecords s t

/-- At most one `TG` or `DROP` record a step, and only an `RX` gives one (R100, R190). -/
def Obligations.OnlyRxEndsAFrame : Prop :=
  ∀ s t : State, step s = .next t →
    (newRecords s t).countP endsFrame ≤ 1 ∧
    (0 < (newRecords s t).countP endsFrame → ∃ c rest, decode s.input = .instr (.rx c) rest)

/-! ## The invariant -/

/-- R35: what holds between operations is kept by every step, from every state that meets it. -/
def Obligations.EveryStepKeepsTheInvariant : Prop :=
  ∀ s t : State, s.Inv → step s = .next t → t.Inv

/-- The state after reset meets the invariant (R34, R35). -/
def Obligations.ResetStateMeetsTheInvariant : Prop := State.reset.Inv

/-! ## `RX`: the Frame Accumulator -/

/-- R101, R191: a chunk that does not fit is discarded with the whole buffer. -/
def Obligations.RxOverflowDiscardsBufferAndChunk : Prop :=
  ∀ (s : State) (c : List Octet) (cap : Nat), s.cfg.bufCap = some cap → cap < s.buf.length + c.length →
    exec (.rx c) s = .next { s with
      buf := []
      iter := 0
      lastDrop := 4
      events := s.events ++ [.drop .overflow (s.buf.length + c.length)] }

/-- R101 to R104, R106: a buffer without a complete candidate is kept, the chunk at its end, and the iteration is counted
(while the count stays below `ITER_MAX`). Nothing else changes. -/
def Obligations.RxKeepsAnUnfinishedBuffer : Prop :=
  ∀ (s : State) (c : List Octet), Fits s c → (Waits (s.buf ++ c) ∨ NotCandidate (s.buf ++ c)) →
    s.iter.toNat + 1 < s.cfg.iterMax →
    exec (.rx c) s = .next { s with buf := s.buf ++ c, iter := s.iter + 1 }

/-- R111: where the count reaches `ITER_MAX` after `WAIT` or `NOCAND` the buffer is discarded, with a `DROP` record unless
it was empty. -/
def Obligations.RxAntiRunawayDiscards : Prop :=
  ∀ (s : State) (c : List Octet), Fits s c → (Waits (s.buf ++ c) ∨ NotCandidate (s.buf ++ c)) →
    s.cfg.iterMax ≤ s.iter.toNat + 1 →
    exec (.rx c) s = .next (if s.buf ++ c = [] then { s with buf := [], iter := 0 } else { s with
      buf := []
      iter := 0
      lastDrop := 3
      events := s.events ++ [.drop .runaway (s.buf.length + c.length)] })

/-- R105: a candidate whose length octets differ goes with the whole buffer, as soon as its four header octets are
there. -/
def Obligations.RxLengthMismatchDiscards : Prop :=
  ∀ (s : State) (c : List Octet), Fits s c → Candidate (s.buf ++ c) → ¬ LengthsAgree (s.buf ++ c) →
    exec (.rx c) s = .next { s with
      buf := []
      iter := 0
      lastDrop := 1
      events := s.events ++ [.drop .lenMismatch (s.buf.length + c.length)] }

/-- R110: a complete candidate frame whose check fails goes with the whole buffer, and no Telegram is emitted. -/
def Obligations.RxCheckFailureDiscards : Prop :=
  ∀ (s : State) (c : List Octet), Fits s c → Complete (s.buf ++ c) →
    validAccepts s.cfg.valid ((s.buf ++ c).take (totalLength (s.buf ++ c))) = false →
    exec (.rx c) s = .next { s with
      buf := []
      iter := 0
      lastDrop := 2
      events := s.events ++ [.drop .checkFail (s.buf.length + c.length)] }

/-- R109, R139: a valid frame leaves the buffer, the remainder stays, `LASTTAG` and the `TG` record are written, then the
`GROUP_MAP` rows of the tag run in order, each as the `DIFF` of its octets of the user data, and an `SbStatus`
Telegram clears `REFRESH` last. -/
def Obligations.RxEmitsAndDelivers : Prop :=
  ∀ (s : State) (c frame rest : List Octet) (tag : Tag), Fits s c → Complete (s.buf ++ c) →
    s.buf ++ c = frame ++ rest → frame.length = totalLength (s.buf ++ c) →
    validAccepts s.cfg.valid frame = true → HasTag s.cfg.toParams frame tag →
    ∃ u, runPasses ((frame.drop 4).take (frame.getD 1 0).toNat) (s.cfg.groupMap.filter fun row => row.tag == tag)
        { s with
          buf := rest
          iter := 0
          lastTag := tag.code
          events := s.events ++ [.tg tag (hintOf tag) (destOf tag) frame] } = .next u ∧
      exec (.rx c) s = .next (if tag = .sbStatus then { u with refresh := false } else u)

/-- The frame of `RX`: parameters, command stream and `LASTERR` stay; without a Telegram so do `LASTTAG` and `REFRESH`, and
with one `LASTTAG` is its tag and `REFRESH` stays unless the tag is `SbStatus`; `LASTDROP` is the reason of a drop, and
stays without one; a snapshot register stays unless a `GROUP_MAP` row of the Telegram's tag names it (R25, R100,
R191). -/
def Obligations.RxFrame : Prop :=
  ∀ (s t : State) (c : List Octet), exec (.rx c) s = .next t →
    t.cfg = s.cfg ∧ t.input = s.input ∧ t.lastErr = s.lastErr ∧ t.events = s.events ++ newRecords s t ∧
    ((∀ tag h d raw, .tg tag h d raw ∉ newRecords s t) → t.lastTag = s.lastTag ∧ t.refresh = s.refresh) ∧
    (∀ tag h d raw, .tg tag h d raw ∈ newRecords s t →
      t.lastTag = tag.code ∧ (tag ≠ .sbStatus → t.refresh = s.refresh)) ∧
    (∀ reason n, .drop reason n ∈ newRecords s t → t.lastDrop = reason.code) ∧
    ((∀ reason n, .drop reason n ∉ newRecords s t) → t.lastDrop = s.lastDrop) ∧
    (∀ g : Group, (∀ tag h d raw, .tg tag h d raw ∈ newRecords s t →
      ∀ row ∈ s.cfg.groupMap, row.tag = tag → row.group ≠ g) → t.prev g = s.prev g)

/-- Every octet of the buffer after an `RX`: after a Telegram index a holds what index `len(raw) + a` of buffer and chunk
held, after a drop there is none, and else the buffer is as before with the chunk from index `BLEN` on (R50, R51). -/
def Obligations.RxBufferOctetByOctet : Prop :=
  ∀ (s t : State) (c : List Octet), exec (.rx c) s = .next t →
    (∀ tag h d raw, .tg tag h d raw ∈ newRecords s t →
      ∀ a, Memory.read t.buf a = Memory.read (s.buf ++ c) (raw.length + a)) ∧
    (∀ reason n, .drop reason n ∈ newRecords s t → ∀ a, Memory.read t.buf a = none) ∧
    (newRecords s t = [] → (∀ a, a < s.buf.length → Memory.read t.buf a = Memory.read s.buf a) ∧
      ∀ j : Nat, Memory.read t.buf (s.buf.length + j) = Memory.read c j)

/-- No resynchronisation: behind an octet at index 0 that is no marker no Telegram is emitted, and the buffer is kept or
discarded whole (R104, R225). -/
def Obligations.NoTelegramBehindAStrayOctet : Prop :=
  ∀ (s t : State) (c : List Octet) (o : Octet), s.buf.head? = some o → o ≠ 0x68 → exec (.rx c) s = .next t →
    (∀ tag h d raw, .tg tag h d raw ∉ newRecords s t) ∧ (t.buf = s.buf ++ c ∨ t.buf = [])

/-- A well-formed frame fed into an empty buffer in any chunks, the last not empty, within the iteration bound, gives
nothing before the last chunk, and then exactly one Telegram, the frame itself with its tag; the buffer is empty and
the counter 0 (R115; every legal `BUF_CAP` holds a frame). An empty chunk after it is one more read iteration: the counter
is then 1, as R115 says, or, where `ITER_MAX` is 1, back at 0 by R111, which R115 does not say. -/
def Obligations.ChunkingDoesNotAffectTheTelegram : Prop :=
  ∀ (s : State) (frame last : List Octet) (chunks : List (List Octet)),
    WellFormedFrame s.cfg.valid frame → (chunks ++ [last]).flatten = frame → last ≠ [] → s.buf = [] →
    s.iter.toNat + (chunks.length + 1) ≤ s.cfg.iterMax →
    (∀ k, k ≤ chunks.length → feed (chunks.take k) s =
      .next { s with buf := (chunks.take k).flatten, iter := s.iter + BitVec.ofNat 16 k }) ∧
    ∃ t tag recs, feed (chunks ++ [last]) s = .next t ∧ t.buf = [] ∧ t.iter = 0 ∧ HasTag s.cfg.toParams frame tag ∧
      t.events = s.events ++ .tg tag (hintOf tag) (destOf tag) frame :: recs ∧ (∀ e ∈ recs, endsFrame e = false) ∧
      exec (.rx []) t = .next { t with iter := if 1 < s.cfg.iterMax then 1 else 0 }

/-- A frame of good shape whose check fails, fed in any chunks within the bound, gives no Telegram and exactly one
`DROP` of its length, and leaves an empty buffer (R116, which the spec derives from R113). -/
def Obligations.CorruptedCheckIsDroppedOnce : Prop :=
  ∀ (s : State) (frame last : List Octet) (chunks : List (List Octet)),
    FrameShape frame → validAccepts s.cfg.valid frame = false → (chunks ++ [last]).flatten = frame → last ≠ [] →
    s.buf = [] → s.iter.toNat + (chunks.length + 1) ≤ s.cfg.iterMax →
    (∀ k, k ≤ chunks.length → feed (chunks.take k) s =
      .next { s with buf := (chunks.take k).flatten, iter := s.iter + BitVec.ofNat 16 k }) ∧
    feed (chunks ++ [last]) s = .next { s with
      buf := []
      iter := 0
      lastDrop := 2
      events := s.events ++ [.drop .checkFail frame.length] }

/-! ## `CLS` and the classifier -/

/-- R130, R131, R135: every sequence has exactly one tag, a function of the sequence, `VALID` and `CLASS_TABLE` alone, and
`CLS` reports it with its hint and destination and writes nothing else. -/
def Obligations.ClsReportsTheOneTag : Prop :=
  ∀ (p : Params) (x : List Octet), ∃ tag, HasTag p x tag ∧ (∀ other, HasTag p x other → other = tag) ∧
    ∀ s : State, s.cfg.valid = p.valid → s.cfg.classTable = p.classTable →
      exec (.cls x) s = .next { s with events := s.events ++ [.clsr tag (hintOf tag) (destOf tag)] }

/-- R138: which tags open and close the gate. -/
def Obligations.GateHintOfEachTag : Prop :=
  ∀ t : Tag,
    (hintOf t = .set ↔ t ∈ [Tag.sbStatus, .usedOutputs, .usedContactsInfo, .usedOutputContactsInfo,
      .usedSbContactsInfo, .usedMbContactsInfo, .restart, .unknown, .invalid]) ∧
    (hintOf t = .clr ↔ t = .confirmAck)

/-- R137: the destination of each tag. -/
def Obligations.DestinationOfEachTag : Prop :=
  ∀ t : Tag,
    (destOf t = .diff ↔ t ∈ [Tag.mpContacts, .sbStatus]) ∧
    (destOf t = .discovery ↔ t ∈ [Tag.usedInputs, .usedOutputs, .usedContactsInfo, .usedOutputContactsInfo,
      .usedSbContactsInfo, .usedMbContactsInfo, .notUsedContact]) ∧
    (destOf t = .passthru ↔ t ∈ [Tag.sysIntArmed, .sysExtArmed, .sysDisarmed, .alarm, .intrusion, .batteryMalfunction,
      .powerOutage, .opticalFlasherMalfunction, .horn1Malfunction, .horn2Malfunction, .comFault]) ∧
    (destOf t = .flowctl ↔ t ∈ [Tag.sendNorm, .confirmAck]) ∧
    (destOf t = .none ↔ t ∈ [Tag.restart, .unknown, .invalid])

/-- R136: every Telegram emitted is a well-formed frame with its own tag, never `Invalid`, and carries that tag's hint and
destination. -/
def Obligations.EveryTelegramIsWellFormed : Prop :=
  ∀ (s t : State) (tag : Tag) (h : Hint) (d : Dest) (raw : List Octet), step s = .next t →
    .tg tag h d raw ∈ newRecords s t →
    WellFormedFrame s.cfg.valid raw ∧ HasTag s.cfg.toParams raw tag ∧ tag ≠ .invalid ∧ h = hintOf tag ∧ d = destOf tag

/-- The check octet is unique: for given header, user data and terminator at most one check octet makes a frame valid
under an instantiation `VALID_CK(CKF, e)` (R108, `CK_UNIQUE`). -/
def Obligations.CheckOctetIsUnique : Prop :=
  ∀ (f : CheckFn) (e : Option Octet) (header u : List Octet) (ck ck' fin : Octet), header.length = 4 →
    validAccepts (.ck f e) (header ++ u ++ [ck, fin]) = true →
    validAccepts (.ck f e) (header ++ u ++ [ck', fin]) = true → ck = ck'

/-- `FRAME(u)` is a well-formed frame with user data `u` (R74, R89), and it is defined for every `u` of at most 255 octets
(R71) where `VALID` is an instantiation `VALID_CK(CKF, e)` whose `e` is none or `END_OCTET`; the condition on `e` is the
model's choice (log entry 12). So each of these instantiations accepts a frame of every such `u`. -/
def Obligations.FrameTextBuildsAWellFormedFrame : Prop :=
  (∀ (p : Params) (u frame : List Octet), frameOf p u = some frame →
    WellFormedFrame p.valid frame ∧ userData frame = u) ∧
  (∀ (p : Params) (f : CheckFn) (e : Option Octet) (u : List Octet), p.valid = .ck f e → u.length ≤ 255 →
    (e = none ∨ e = some p.endOctet) → ∃ frame, frameOf p u = some frame)

/-! ## `DIFF`, `SETREF` and the comparator -/

/-- R153: the snapshot has eight bits an octet, bit `8k + j` is bit j of octet k, and the document's two steps (reverse each
octet, then build most significant bit first) give the same array. -/
def Obligations.SnapshotBitOrder : Prop :=
  ∀ octets : List Octet,
    snapshot octets = bitsOf octets ∧ snapshotTwoStep octets = snapshot octets ∧
    (snapshot octets).length = 8 * octets.length

/-- R154, R160: `DIFF` of a bit group emits, ascending, one record for each index that changed (for each index on a full
refresh) and replaces the register; nothing else changes. -/
def Obligations.DiffBitsEmitsTheChanges : Prop :=
  ∀ (s : State) (g : Group) (octets : List Octet) (indices : List Nat), g ≠ .sb →
    indices = (List.range (8 * octets.length)).filter (fun i => s.refresh ||
      8 * octets.length != (s.prev g).length || bitOf octets i != (s.prev g).getD i false) →
    exec (.diff g octets) s = .next (State.setPrev { s with
      events := s.events ++ indices.map fun i => .ae g (at16 (s.cfg.base g) i) (bitOf octets i) } g (bitsOf octets))

/-- R155, R160: `DIFF SB` compares octets: on the snapshot of `old` it emits, ascending, one composite record for each octet
that differs (for each octet on a full refresh), its bits the octet's, and replaces the register. -/
def Obligations.DiffSbEmitsWholeRecords : Prop :=
  ∀ (s : State) (old octets : List Octet) (indices : List Nat), s.prev .sb = bitsOf old →
    indices = (List.range octets.length).filter (fun k => s.refresh || octets.length != old.length ||
      octets.getD k 0 != old.getD k 0) →
    exec (.diff .sb octets) s = .next (State.setPrev { s with
      events := s.events ++ indices.map fun k => .sbe (at16 (s.cfg.base .sb) k) (octets.getD k 0) } .sb
      (bitsOf octets))

/-- R157: a length change is a full refresh: every index of the new snapshot is emitted, changed or not; an empty new
snapshot emits nothing and empties the register. -/
def Obligations.LengthChangeIsAFullRefresh : Prop :=
  ∀ (s t : State) (g : Group) (octets : List Octet), 8 * octets.length ≠ (s.prev g).length →
    exec (.diff g octets) s = .next t →
    t.prev g = bitsOf octets ∧
    newRecords s t = (if g = .sb then
      (List.range octets.length).map fun k => .sbe (at16 (s.cfg.base .sb) k) (octets.getD k 0)
    else (List.range (8 * octets.length)).map fun i => .ae g (at16 (s.cfg.base g) i) (bitOf octets i))

/-- R163 (a), (d): without a refresh request, a pass on the octets the register already holds changes nothing and emits
nothing, for every group; so a `DIFF` repeated at once is silent. -/
def Obligations.EqualSnapshotsEmitNothing : Prop :=
  ∀ (s t : State) (g : Group) (octets : List Octet), s.refresh = false →
    (s.prev g = bitsOf octets → exec (.diff g octets) s = .next s) ∧
    (exec (.diff g octets) s = .next t → exec (.diff g octets) t = .next t)

/-- R163 (b): octets that differ in bit j of octet k only give exactly one record: the address event of index `8k + j` with
the new value, or for `SB` the composite record of octet k. -/
def Obligations.OneChangedBitGivesOneEvent : Prop :=
  ∀ (s : State) (g : Group) (old octets : List Octet) (k j : Nat), s.refresh = false → s.prev g = bitsOf old →
    old.length = octets.length → k < octets.length → j < 8 →
    (∀ i, i < 8 * octets.length → (bitOf octets i ≠ bitOf old i ↔ i = 8 * k + j)) →
    exec (.diff g octets) s = .next (State.setPrev { s with
      events := s.events ++ [if g = .sb then .sbe (at16 (s.cfg.base .sb) k) (octets.getD k 0)
        else .ae g (at16 (s.cfg.base g) (8 * k + j)) (bitOf octets (8 * k + j))] } g (bitsOf octets))

/-- R155, R162: no `AE` record is of group `SB`, and no event address wraps: it lies in the group's range of 2040 bits, or of
255 records. -/
def Obligations.EventAddressesStayInTheirRange : Prop :=
  ∀ s t : State, step s = .next t →
    (∀ g a v, .ae g a v ∈ newRecords s t →
      g ≠ .sb ∧ s.cfg.base g ≤ a.toNat ∧ a.toNat < s.cfg.base g + 2040) ∧
    (∀ a b, .sbe a b ∈ newRecords s t → s.cfg.base .sb ≤ a.toNat ∧ a.toNat < s.cfg.base .sb + 255)

/-- R151: `SETREF` sets `REFRESH`, emits nothing and changes nothing else; repeating it changes nothing. -/
def Obligations.SetrefOnlySetsRefresh : Prop :=
  ∀ s : State, exec .setref s = .next { s with refresh := true } ∧ (s.refresh = true → exec .setref s = .next s)

/-- R27, R159: `REFRESH` falls only by `RESET` or at the end of an `SbStatus` Telegram, always falls there, and rises only by
`SETREF`. -/
def Obligations.RefreshFallsOnlyBySbStatusOrReset : Prop :=
  ∀ s t : State, step s = .next t →
    (s.refresh = true → t.refresh = false → (∃ rest, decode s.input = .instr .reset rest) ∨
      ∃ h d raw, .tg .sbStatus h d raw ∈ newRecords s t) ∧
    ((∃ h d raw, .tg .sbStatus h d raw ∈ newRecords s t) → t.refresh = false) ∧
    (s.refresh = false → t.refresh = true → ∃ rest, decode s.input = .instr .setref rest)

/-- The frame of the operations that store nothing in the buffer (`CLS`, `DIFF`, `SETREF`, `RDS`): every octet of the buffer
reads as before, and `ITER`, `LASTTAG`, `LASTDROP`, the parameters and the command stream stay; only `DIFF` writes a
snapshot register, its own, only `SETREF` writes `REFRESH`, and only a refused `RDS` writes `LASTERR`
(R130, R150, R151, R152, R182). -/
def Obligations.FrameOfTheOperationsThatStoreNothing : Prop :=
  ∀ (i : Instr) (s t : State), (∀ c, i ≠ .rx c) → i ≠ .reset → exec i s = .next t →
    (∀ a, Memory.read t.buf a = Memory.read s.buf a) ∧ t.iter = s.iter ∧ t.lastTag = s.lastTag ∧
    t.lastDrop = s.lastDrop ∧ t.cfg = s.cfg ∧ t.input = s.input ∧ t.events = s.events ++ newRecords s t ∧
    (∀ g, (∀ octets, i ≠ .diff g octets) → t.prev g = s.prev g) ∧ (i ≠ .setref → t.refresh = s.refresh) ∧
    ((∀ r, r ∉ legalRegs → i ≠ .rds r) → t.lastErr = s.lastErr)

/-! ## `RDS`, `RESET` and reset -/

/-- R29, R182: reading a legal register emits its value, computed from the state at that moment, and writes nothing else;
with every snapshot at most 2040 bits (R24) each legal register has such a value. -/
def Obligations.RdsReportsTheRegister : Prop :=
  (∀ (s : State) (r : BitVec 4) (v : Word), RegValue s r v →
    exec (.rds r) s = .next { s with events := s.events ++ [.csrv r v] }) ∧
  (∀ s : State, (∀ g, (s.prev g).length ≤ 2040) → ∀ r ∈ legalRegs, ∃ v, RegValue s r v)

/-- R84 (b), R182: reading a reserved register is refused with `Err(BAD_OPERAND)` and its own command word. -/
def Obligations.RdsOfAReservedRegisterIsRefused : Prop :=
  ∀ (s : State) (r : BitVec 4), r ∉ legalRegs →
    exec (.rds r) s = .next { s with
      lastErr := 3
      events := s.events ++ [.err .badOperand (BitVec.ofNat 16 (0x5000 + r.toNat))] }

/-- R180, R181, R220: `RESET` puts the ten elements of the state at their reset values and keeps parameters and both
streams; the hardware reset has the same effect, and an empty event stream. That the hardware reset keeps the command words
not yet consumed is the model's choice (log entry 11): R220 does not speak of them. -/
def Obligations.ResetRestoresTheResetState : Prop :=
  ∀ s : State,
    exec .reset s = .next { State.reset with cfg := s.cfg, input := s.input, events := s.events } ∧
    s.hardwareReset = { State.reset with cfg := s.cfg, input := s.input }

/-- R34: the reset value of every element of the state. -/
def Obligations.ResetValuesAreThoseOfTheSpec : Prop :=
  State.reset.buf = [] ∧ State.reset.iter = 0 ∧ State.reset.refresh = false ∧ (∀ g, State.reset.prev g = []) ∧
  State.reset.lastTag = 31 ∧ State.reset.lastDrop = 0 ∧ State.reset.lastErr = 0

/-- A block is brought up from the parameters the host supplies: a set that breaks a constraint of R5, R133 or R140 is
refused, and a set that meets them all gives the reset state with exactly these parameters, which meets the invariant
(R5, R133, R140, R223). -/
def Obligations.BootRefusesIllegalParameters : Prop :=
  ∀ p : Params,
    (¬ LegalParams p → boot p = none) ∧
    (LegalParams p → ∃ s, boot p = some s ∧ s.cfg.toParams = p ∧ s = { State.reset with cfg := s.cfg } ∧ s.Inv)
end

