-- ==== Sys2Proof/Laws/State.lean ====
section
/-! SUPPORT. Laws/State: what each named update of the state does to each field. -/

namespace Sys2Proof.Machine

section Updates

variable (s : State)

@[simp] theorem append_cfg (c : List Octet) : (s.append c).cfg = s.cfg := rfl
@[simp] theorem append_buf (c : List Octet) : (s.append c).buf = s.buf ++ c := rfl
@[simp] theorem append_iter (c : List Octet) : (s.append c).iter = s.iter := rfl
@[simp] theorem append_refresh (c : List Octet) : (s.append c).refresh = s.refresh := rfl
@[simp] theorem append_prevMP (c : List Octet) : (s.append c).prevMP = s.prevMP := rfl
@[simp] theorem append_prevSB (c : List Octet) : (s.append c).prevSB = s.prevSB := rfl
@[simp] theorem append_prevMB (c : List Octet) : (s.append c).prevMB = s.prevMB := rfl
@[simp] theorem append_prevMBD (c : List Octet) : (s.append c).prevMBD = s.prevMBD := rfl
@[simp] theorem append_lastTag (c : List Octet) : (s.append c).lastTag = s.lastTag := rfl
@[simp] theorem append_lastDrop (c : List Octet) : (s.append c).lastDrop = s.lastDrop := rfl
@[simp] theorem append_lastErr (c : List Octet) : (s.append c).lastErr = s.lastErr := rfl
@[simp] theorem append_input (c : List Octet) : (s.append c).input = s.input := rfl
@[simp] theorem append_events (c : List Octet) : (s.append c).events = s.events := rfl

@[simp] theorem clearBuffer_cfg : (s.clearBuffer).cfg = s.cfg := rfl
@[simp] theorem clearBuffer_buf : (s.clearBuffer).buf = [] := rfl
@[simp] theorem clearBuffer_iter : (s.clearBuffer).iter = 0 := rfl
@[simp] theorem clearBuffer_refresh : (s.clearBuffer).refresh = s.refresh := rfl
@[simp] theorem clearBuffer_prevMP : (s.clearBuffer).prevMP = s.prevMP := rfl
@[simp] theorem clearBuffer_prevSB : (s.clearBuffer).prevSB = s.prevSB := rfl
@[simp] theorem clearBuffer_prevMB : (s.clearBuffer).prevMB = s.prevMB := rfl
@[simp] theorem clearBuffer_prevMBD : (s.clearBuffer).prevMBD = s.prevMBD := rfl
@[simp] theorem clearBuffer_lastTag : (s.clearBuffer).lastTag = s.lastTag := rfl
@[simp] theorem clearBuffer_lastDrop : (s.clearBuffer).lastDrop = s.lastDrop := rfl
@[simp] theorem clearBuffer_lastErr : (s.clearBuffer).lastErr = s.lastErr := rfl
@[simp] theorem clearBuffer_input : (s.clearBuffer).input = s.input := rfl
@[simp] theorem clearBuffer_events : (s.clearBuffer).events = s.events := rfl

@[simp] theorem emitAll_cfg (es : List Event) : (s.emitAll es).cfg = s.cfg := rfl
@[simp] theorem emitAll_buf (es : List Event) : (s.emitAll es).buf = s.buf := rfl
@[simp] theorem emitAll_iter (es : List Event) : (s.emitAll es).iter = s.iter := rfl
@[simp] theorem emitAll_refresh (es : List Event) : (s.emitAll es).refresh = s.refresh := rfl
@[simp] theorem emitAll_prevMP (es : List Event) : (s.emitAll es).prevMP = s.prevMP := rfl
@[simp] theorem emitAll_prevSB (es : List Event) : (s.emitAll es).prevSB = s.prevSB := rfl
@[simp] theorem emitAll_prevMB (es : List Event) : (s.emitAll es).prevMB = s.prevMB := rfl
@[simp] theorem emitAll_prevMBD (es : List Event) : (s.emitAll es).prevMBD = s.prevMBD := rfl
@[simp] theorem emitAll_lastTag (es : List Event) : (s.emitAll es).lastTag = s.lastTag := rfl
@[simp] theorem emitAll_lastDrop (es : List Event) : (s.emitAll es).lastDrop = s.lastDrop := rfl
@[simp] theorem emitAll_lastErr (es : List Event) : (s.emitAll es).lastErr = s.lastErr := rfl
@[simp] theorem emitAll_input (es : List Event) : (s.emitAll es).input = s.input := rfl
@[simp] theorem emitAll_events (es : List Event) : (s.emitAll es).events = s.events ++ es := rfl

@[simp] theorem emit_cfg (e : Event) : (s.emit e).cfg = s.cfg := rfl
@[simp] theorem emit_buf (e : Event) : (s.emit e).buf = s.buf := rfl
@[simp] theorem emit_iter (e : Event) : (s.emit e).iter = s.iter := rfl
@[simp] theorem emit_refresh (e : Event) : (s.emit e).refresh = s.refresh := rfl
@[simp] theorem emit_prevMP (e : Event) : (s.emit e).prevMP = s.prevMP := rfl
@[simp] theorem emit_prevSB (e : Event) : (s.emit e).prevSB = s.prevSB := rfl
@[simp] theorem emit_prevMB (e : Event) : (s.emit e).prevMB = s.prevMB := rfl
@[simp] theorem emit_prevMBD (e : Event) : (s.emit e).prevMBD = s.prevMBD := rfl
@[simp] theorem emit_lastTag (e : Event) : (s.emit e).lastTag = s.lastTag := rfl
@[simp] theorem emit_lastDrop (e : Event) : (s.emit e).lastDrop = s.lastDrop := rfl
@[simp] theorem emit_lastErr (e : Event) : (s.emit e).lastErr = s.lastErr := rfl
@[simp] theorem emit_input (e : Event) : (s.emit e).input = s.input := rfl
@[simp] theorem emit_events (e : Event) : (s.emit e).events = s.events ++ [e] := rfl

@[simp] theorem raiseDrop_cfg (r : DropReason) (n : Nat) : (raiseDrop r n s).cfg = s.cfg := rfl
@[simp] theorem raiseDrop_buf (r : DropReason) (n : Nat) : (raiseDrop r n s).buf = s.buf := rfl
@[simp] theorem raiseDrop_iter (r : DropReason) (n : Nat) : (raiseDrop r n s).iter = s.iter := rfl
@[simp] theorem raiseDrop_refresh (r : DropReason) (n : Nat) : (raiseDrop r n s).refresh = s.refresh := rfl
@[simp] theorem raiseDrop_prevMP (r : DropReason) (n : Nat) : (raiseDrop r n s).prevMP = s.prevMP := rfl
@[simp] theorem raiseDrop_prevSB (r : DropReason) (n : Nat) : (raiseDrop r n s).prevSB = s.prevSB := rfl
@[simp] theorem raiseDrop_prevMB (r : DropReason) (n : Nat) : (raiseDrop r n s).prevMB = s.prevMB := rfl
@[simp] theorem raiseDrop_prevMBD (r : DropReason) (n : Nat) : (raiseDrop r n s).prevMBD = s.prevMBD := rfl
@[simp] theorem raiseDrop_lastTag (r : DropReason) (n : Nat) : (raiseDrop r n s).lastTag = s.lastTag := rfl
@[simp] theorem raiseDrop_lastDrop (r : DropReason) (n : Nat) : (raiseDrop r n s).lastDrop = r.code := rfl
@[simp] theorem raiseDrop_lastErr (r : DropReason) (n : Nat) : (raiseDrop r n s).lastErr = s.lastErr := rfl
@[simp] theorem raiseDrop_input (r : DropReason) (n : Nat) : (raiseDrop r n s).input = s.input := rfl
@[simp] theorem raiseDrop_events (r : DropReason) (n : Nat) : (raiseDrop r n s).events = s.events ++ [.drop r n] := rfl

@[simp] theorem raiseErr_cfg (c : ErrCode) (w : Word) : (raiseErr c w s).cfg = s.cfg := rfl
@[simp] theorem raiseErr_buf (c : ErrCode) (w : Word) : (raiseErr c w s).buf = s.buf := rfl
@[simp] theorem raiseErr_iter (c : ErrCode) (w : Word) : (raiseErr c w s).iter = s.iter := rfl
@[simp] theorem raiseErr_refresh (c : ErrCode) (w : Word) : (raiseErr c w s).refresh = s.refresh := rfl
@[simp] theorem raiseErr_prevMP (c : ErrCode) (w : Word) : (raiseErr c w s).prevMP = s.prevMP := rfl
@[simp] theorem raiseErr_prevSB (c : ErrCode) (w : Word) : (raiseErr c w s).prevSB = s.prevSB := rfl
@[simp] theorem raiseErr_prevMB (c : ErrCode) (w : Word) : (raiseErr c w s).prevMB = s.prevMB := rfl
@[simp] theorem raiseErr_prevMBD (c : ErrCode) (w : Word) : (raiseErr c w s).prevMBD = s.prevMBD := rfl
@[simp] theorem raiseErr_lastTag (c : ErrCode) (w : Word) : (raiseErr c w s).lastTag = s.lastTag := rfl
@[simp] theorem raiseErr_lastDrop (c : ErrCode) (w : Word) : (raiseErr c w s).lastDrop = s.lastDrop := rfl
@[simp] theorem raiseErr_lastErr (c : ErrCode) (w : Word) : (raiseErr c w s).lastErr = c.code := rfl
@[simp] theorem raiseErr_input (c : ErrCode) (w : Word) : (raiseErr c w s).input = s.input := rfl
@[simp] theorem raiseErr_events (c : ErrCode) (w : Word) : (raiseErr c w s).events = s.events ++ [.err c w] := rfl

@[simp] theorem resetBlock_cfg : (s.resetBlock).cfg = s.cfg := rfl
@[simp] theorem resetBlock_buf : (s.resetBlock).buf = [] := rfl
@[simp] theorem resetBlock_iter : (s.resetBlock).iter = 0 := rfl
@[simp] theorem resetBlock_refresh : (s.resetBlock).refresh = false := rfl
@[simp] theorem resetBlock_prevMP : (s.resetBlock).prevMP = [] := rfl
@[simp] theorem resetBlock_prevSB : (s.resetBlock).prevSB = [] := rfl
@[simp] theorem resetBlock_prevMB : (s.resetBlock).prevMB = [] := rfl
@[simp] theorem resetBlock_prevMBD : (s.resetBlock).prevMBD = [] := rfl
@[simp] theorem resetBlock_lastTag : (s.resetBlock).lastTag = 31 := rfl
@[simp] theorem resetBlock_lastDrop : (s.resetBlock).lastDrop = 0 := rfl
@[simp] theorem resetBlock_lastErr : (s.resetBlock).lastErr = 0 := rfl
@[simp] theorem resetBlock_input : (s.resetBlock).input = s.input := rfl
@[simp] theorem resetBlock_events : (s.resetBlock).events = s.events := rfl

@[simp] theorem hardwareReset_cfg : (s.hardwareReset).cfg = s.cfg := rfl
@[simp] theorem hardwareReset_buf : (s.hardwareReset).buf = [] := rfl
@[simp] theorem hardwareReset_iter : (s.hardwareReset).iter = 0 := rfl
@[simp] theorem hardwareReset_refresh : (s.hardwareReset).refresh = false := rfl
@[simp] theorem hardwareReset_prevMP : (s.hardwareReset).prevMP = [] := rfl
@[simp] theorem hardwareReset_prevSB : (s.hardwareReset).prevSB = [] := rfl
@[simp] theorem hardwareReset_prevMB : (s.hardwareReset).prevMB = [] := rfl
@[simp] theorem hardwareReset_prevMBD : (s.hardwareReset).prevMBD = [] := rfl
@[simp] theorem hardwareReset_lastTag : (s.hardwareReset).lastTag = 31 := rfl
@[simp] theorem hardwareReset_lastDrop : (s.hardwareReset).lastDrop = 0 := rfl
@[simp] theorem hardwareReset_lastErr : (s.hardwareReset).lastErr = 0 := rfl
@[simp] theorem hardwareReset_input : (s.hardwareReset).input = s.input := rfl
@[simp] theorem hardwareReset_events : (s.hardwareReset).events = [] := rfl

@[simp] theorem offer_cfg (ws : List Word) : (s.offer ws).cfg = s.cfg := rfl
@[simp] theorem offer_buf (ws : List Word) : (s.offer ws).buf = s.buf := rfl
@[simp] theorem offer_iter (ws : List Word) : (s.offer ws).iter = s.iter := rfl
@[simp] theorem offer_refresh (ws : List Word) : (s.offer ws).refresh = s.refresh := rfl
@[simp] theorem offer_prevMP (ws : List Word) : (s.offer ws).prevMP = s.prevMP := rfl
@[simp] theorem offer_prevSB (ws : List Word) : (s.offer ws).prevSB = s.prevSB := rfl
@[simp] theorem offer_prevMB (ws : List Word) : (s.offer ws).prevMB = s.prevMB := rfl
@[simp] theorem offer_prevMBD (ws : List Word) : (s.offer ws).prevMBD = s.prevMBD := rfl
@[simp] theorem offer_lastTag (ws : List Word) : (s.offer ws).lastTag = s.lastTag := rfl
@[simp] theorem offer_lastDrop (ws : List Word) : (s.offer ws).lastDrop = s.lastDrop := rfl
@[simp] theorem offer_lastErr (ws : List Word) : (s.offer ws).lastErr = s.lastErr := rfl
@[simp] theorem offer_input (ws : List Word) : (s.offer ws).input = s.input ++ ws := rfl
@[simp] theorem offer_events (ws : List Word) : (s.offer ws).events = s.events := rfl

@[simp] theorem withFetchWord_cfg (n w : Nat) : (s.withFetchWord n w).cfg = s.cfg := rfl
@[simp] theorem withFetchWord_buf (n w : Nat) : (s.withFetchWord n w).buf = s.buf := rfl
@[simp] theorem withFetchWord_iter (n w : Nat) : (s.withFetchWord n w).iter = s.iter := rfl
@[simp] theorem withFetchWord_refresh (n w : Nat) : (s.withFetchWord n w).refresh = s.refresh := rfl
@[simp] theorem withFetchWord_prevMP (n w : Nat) : (s.withFetchWord n w).prevMP = s.prevMP := rfl
@[simp] theorem withFetchWord_prevSB (n w : Nat) : (s.withFetchWord n w).prevSB = s.prevSB := rfl
@[simp] theorem withFetchWord_prevMB (n w : Nat) : (s.withFetchWord n w).prevMB = s.prevMB := rfl
@[simp] theorem withFetchWord_prevMBD (n w : Nat) : (s.withFetchWord n w).prevMBD = s.prevMBD := rfl
@[simp] theorem withFetchWord_lastTag (n w : Nat) : (s.withFetchWord n w).lastTag = s.lastTag := rfl
@[simp] theorem withFetchWord_lastDrop (n w : Nat) : (s.withFetchWord n w).lastDrop = s.lastDrop := rfl
@[simp] theorem withFetchWord_lastErr (n w : Nat) : (s.withFetchWord n w).lastErr = s.lastErr := rfl
@[simp] theorem withFetchWord_input (n w : Nat) : (s.withFetchWord n w).input = tableWords n w ++ s.input := rfl
@[simp] theorem withFetchWord_events (n w : Nat) : (s.withFetchWord n w).events = s.events := rfl

@[simp] theorem setPrev_cfg (g : Group) (v : List Bool) : (s.setPrev g v).cfg = s.cfg := by cases g <;> rfl
@[simp] theorem setPrev_buf (g : Group) (v : List Bool) : (s.setPrev g v).buf = s.buf := by cases g <;> rfl
@[simp] theorem setPrev_iter (g : Group) (v : List Bool) : (s.setPrev g v).iter = s.iter := by cases g <;> rfl
@[simp] theorem setPrev_refresh (g : Group) (v : List Bool) : (s.setPrev g v).refresh = s.refresh := by cases g <;> rfl
@[simp] theorem setPrev_lastTag (g : Group) (v : List Bool) : (s.setPrev g v).lastTag = s.lastTag := by cases g <;> rfl
@[simp] theorem setPrev_lastDrop (g : Group) (v : List Bool) : (s.setPrev g v).lastDrop = s.lastDrop := by cases g <;> rfl
@[simp] theorem setPrev_lastErr (g : Group) (v : List Bool) : (s.setPrev g v).lastErr = s.lastErr := by cases g <;> rfl
@[simp] theorem setPrev_input (g : Group) (v : List Bool) : (s.setPrev g v).input = s.input := by cases g <;> rfl
@[simp] theorem setPrev_events (g : Group) (v : List Bool) : (s.setPrev g v).events = s.events := by cases g <;> rfl

/-- A snapshot register reads what was last written to it, and a write leaves the three others alone (R24, R25). -/
theorem setPrev_prev (g h : Group) (v : List Bool) : (s.setPrev g v).prev h = if h = g then v else s.prev h := by
  cases g <;> cases h <;> rfl

@[simp] theorem setPrev_prev_self (g : Group) (v : List Bool) : (s.setPrev g v).prev g = v := by cases g <;> rfl

theorem setPrev_prev_ne {g h : Group} (hne : h ≠ g) (v : List Bool) : (s.setPrev g v).prev h = s.prev h := by
  rw [setPrev_prev, if_neg hne]

end Updates

section Registers

variable (s : State) (g : Group)

/-- A snapshot register depends on the four snapshot fields alone. -/
theorem prev_congr {s t : State} (h1 : t.prevMP = s.prevMP) (h2 : t.prevSB = s.prevSB) (h3 : t.prevMB = s.prevMB)
    (h4 : t.prevMBD = s.prevMBD) : t.prev = s.prev := by
  funext g
  cases g <;> simp [State.prev, h1, h2, h3, h4]

@[simp] theorem append_prev (c : List Octet) : (s.append c).prev g = s.prev g := by cases g <;> rfl
@[simp] theorem clearBuffer_prev : (s.clearBuffer).prev g = s.prev g := by cases g <;> rfl
@[simp] theorem emitAll_prev (es : List Event) : (s.emitAll es).prev g = s.prev g := by cases g <;> rfl
@[simp] theorem emit_prev (e : Event) : (s.emit e).prev g = s.prev g := by cases g <;> rfl
@[simp] theorem raiseDrop_prev (r : DropReason) (n : Nat) : (raiseDrop r n s).prev g = s.prev g := by cases g <;> rfl
@[simp] theorem raiseErr_prev (c : ErrCode) (w : Word) : (raiseErr c w s).prev g = s.prev g := by cases g <;> rfl
@[simp] theorem resetBlock_prev : (s.resetBlock).prev g = [] := by cases g <;> rfl
@[simp] theorem hardwareReset_prev : (s.hardwareReset).prev g = [] := by cases g <;> rfl
@[simp] theorem offer_prev (ws : List Word) : (s.offer ws).prev g = s.prev g := by cases g <;> rfl
@[simp] theorem withFetchWord_prev (n w : Nat) : (s.withFetchWord n w).prev g = s.prev g := by cases g <;> rfl

end Registers

/-- ALL THAT BRINGING A BLOCK UP CAN ANSWER: the reset state with the parameters supplied, or nothing for a set that breaks
a constraint (R5, R223). -/
theorem boot_cases (p : Params) :
    (∃ h : p.ok = true, boot p = some { State.reset with cfg := { p with isOk := h } }) ∨
    (p.ok = false ∧ boot p = none) := by
  unfold boot Params.configure
  by_cases h : p.ok = true
  · rw [dif_pos h]
    exact .inl ⟨h, rfl⟩
  · rw [dif_neg h]
    exact .inr ⟨by simpa using h, rfl⟩

/-- `BLEN` is the length of the buffer (R22). -/
@[simp] theorem blen_eq (s : State) : s.blen = s.buf.length := rfl

end Sys2Proof.Machine
end

