-- ==== Sys2Proof/Laws/BitDiff.lean ====
section
/-! SUPPORT. Laws/BitDiff: snapshots by index, and everything a comparator pass can do (R153 to R161). -/

namespace Sys2Proof.Machine

@[simp] theorem octetBits_length (o : Octet) : (octetBits o).length = 8 := by simp [octetBits]

theorem octetBits_getD (o : Octet) {j : Nat} (h : j < 8) : (octetBits o).getD j false = o.getLsbD j := by
  simp [octetBits, h]

@[simp] theorem snapshot_nil : snapshot [] = [] := rfl

@[simp] theorem snapshot_cons (o : Octet) (n : List Octet) : snapshot (o :: n) = octetBits o ++ snapshot n := rfl

/-- A snapshot has eight bits an octet (R153). -/
@[simp] theorem snapshot_length (n : List Octet) : (snapshot n).length = 8 * n.length := by
  induction n with
  | nil => rfl
  | cons o n ih => simp [ih]; omega

/-- `new[8k + j] = N[k][j]` (R153). -/
theorem snapshot_getElem? (n : List Octet) (i : Nat) :
    (snapshot n)[i]? = (n[i / 8]?).map fun o => o.getLsbD (i % 8) := by
  induction n generalizing i with
  | nil => simp
  | cons o n ih =>
    rw [snapshot_cons, List.getElem?_append]
    by_cases h : i < 8
    · have h0 : i / 8 = 0 := by omega
      have h1 : i % 8 = i := by omega
      simp [h, h0, h1, octetBits]
    · have h0 : i / 8 = (i - 8) / 8 + 1 := by omega
      have h1 : i % 8 = (i - 8) % 8 := by omega
      simp [h, h0, h1, ih]

/-- The eight bits of record k are the bits of octet k (R155). -/
theorem snapshot_record (n : List Octet) (k : Nat) :
    ((snapshot n).drop (8 * k)).take 8 = ((n[k]?).map octetBits).getD [] := by
  induction n generalizing k with
  | nil => simp
  | cons o n ih =>
    cases k with
    | zero => simp
    | succ k =>
      have h : 8 * (k + 1) = (octetBits o).length + 8 * k := by simp; omega
      rw [snapshot_cons, h, ← List.drop_drop, List.drop_left, ih]
      simp

/-- Octets are equal when their bits are (R155). -/
theorem octetBits_injective {a b : Octet} (h : octetBits a = octetBits b) : a = b := by
  apply BitVec.eq_of_getLsbD_eq
  intro j hj
  have := congrArg (fun l => l.getD j false) h
  simp only [octetBits_getD _ hj] at this
  exact this

/-- The value of a list of bits has them as its binary digits. -/
theorem bitsValue_testBit (b : List Bool) (j : Nat) : (bitsValue b).testBit j = b.getD j false := by
  induction b generalizing j with
  | nil => simp [bitsValue]
  | cons a b ih =>
    cases j with
    | zero => cases a <;> simp [bitsValue, Nat.testBit_zero, Nat.add_mod]
    | succ j =>
      have : (bitsValue (a :: b)) / 2 = bitsValue b := by
        cases a <;> simp [bitsValue]
        omega
      rw [Nat.testBit_succ, this, ih]
      simp

/-- The bits of a composite event are those of the wire octet (R155). -/
theorem recordBits_snapshot (n : List Octet) (k : Nat) : recordBits (snapshot n) k = n.getD k 0 := by
  apply BitVec.eq_of_getLsbD_eq
  intro j hj
  rw [recordBits, snapshot_record, BitVec.getLsbD_ofNat, bitsValue_testBit]
  cases hk : n[k]? with
  | none => simp [List.getD, hk]
  | some o => simp [List.getD, hk, hj, octetBits]

/-- The records of a comparator pass (R154, R155). -/
def passRecords (s : State) (g : Group) (n : List Octet) : List Event :=
  match g with
  | .sb => byteRecords (s.cfg.base .sb) n.length (fullRefresh s .sb (snapshot n)) (s.prev .sb) (snapshot n)
  | .mp => bitRecords (s.cfg.base .mp) .mp (fullRefresh s .mp (snapshot n)) (s.prev .mp) (snapshot n)
  | .mb => bitRecords (s.cfg.base .mb) .mb (fullRefresh s .mb (snapshot n)) (s.prev .mb) (snapshot n)
  | .mbd => bitRecords (s.cfg.base .mbd) .mbd (fullRefresh s .mbd (snapshot n)) (s.prev .mbd) (snapshot n)

/-- All a pass does: it appends its records and replaces its register (R152, R160). -/
theorem diffPass_eq (g : Group) (n : List Octet) (s : State) :
    diffPass g n s = (s.emitAll (passRecords s g n)).setPrev g (snapshot n) := by
  cases g <;> rfl

section DiffPass

variable (g : Group) (n : List Octet) (s : State)

@[simp] theorem diffPass_cfg : (diffPass g n s).cfg = s.cfg := by simp [diffPass_eq]
@[simp] theorem diffPass_buf : (diffPass g n s).buf = s.buf := by simp [diffPass_eq]
@[simp] theorem diffPass_iter : (diffPass g n s).iter = s.iter := by simp [diffPass_eq]
@[simp] theorem diffPass_refresh : (diffPass g n s).refresh = s.refresh := by simp [diffPass_eq]
@[simp] theorem diffPass_lastTag : (diffPass g n s).lastTag = s.lastTag := by simp [diffPass_eq]
@[simp] theorem diffPass_lastDrop : (diffPass g n s).lastDrop = s.lastDrop := by simp [diffPass_eq]
@[simp] theorem diffPass_lastErr : (diffPass g n s).lastErr = s.lastErr := by simp [diffPass_eq]
@[simp] theorem diffPass_input : (diffPass g n s).input = s.input := by simp [diffPass_eq]
@[simp] theorem diffPass_events : (diffPass g n s).events = s.events ++ passRecords s g n := by simp [diffPass_eq]

theorem diffPass_prev (h : Group) : (diffPass g n s).prev h = if h = g then snapshot n else s.prev h := by
  rw [diffPass_eq, setPrev_prev, emitAll_prev]

end DiffPass

/-- What a record of a bitwise pass is: one of a changed or refreshed index (R154). -/
theorem mem_bitRecords {base : Nat} {g : Group} {full : Bool} {old new : List Bool} {e : Event}
    (h : e ∈ bitRecords base g full old new) :
    ∃ i, i < new.length ∧ (full = true ∨ new[i]? ≠ old[i]?) ∧ e = .ae g (eventAddress base i) (new.getD i false) := by
  simp only [bitRecords, List.mem_filterMap, List.mem_range] at h
  obtain ⟨i, hi, h⟩ := h
  split at h
  · rename_i hc
    refine ⟨i, hi, ?_, by simpa using h.symm⟩
    simpa [Bool.or_eq_true] using hc
  · cases h

/-- What a record of the bytewise pass is: one of a changed or refreshed octet (R155). -/
theorem mem_byteRecords {base n : Nat} {full : Bool} {old new : List Bool} {e : Event}
    (h : e ∈ byteRecords base n full old new) :
    ∃ k, k < n ∧ e = .sbe (eventAddress base k) (recordBits new k) := by
  simp only [byteRecords, List.mem_filterMap, List.mem_range] at h
  obtain ⟨k, hk, h⟩ := h
  split at h
  · exact ⟨k, hk, by simpa using h.symm⟩
  · cases h

/-- A record of a pass is an `AE` of its own group, never of `SB`, or an `SBE` (R155, R161). -/
theorem mem_passRecords {s : State} {g : Group} {n : List Octet} {e : Event} (h : e ∈ passRecords s g n) :
    (g ≠ .sb ∧ ∃ i, i < 8 * n.length ∧
      e = .ae g (eventAddress (s.cfg.base g) i) ((snapshot n).getD i false)) ∨
    (g = .sb ∧ ∃ k, k < n.length ∧ e = .sbe (eventAddress (s.cfg.base .sb) k) (n.getD k 0)) := by
  cases g
  case sb =>
    obtain ⟨k, hk, he⟩ := mem_byteRecords h
    exact .inr ⟨rfl, k, hk, by rw [he, recordBits_snapshot]⟩
  all_goals
    obtain ⟨i, hi, -, he⟩ := mem_bitRecords h
    exact .inl ⟨by decide, i, by simpa using hi, he⟩

/-- A list of octets of a snapshot is determined by the snapshot (R155). -/
theorem snapshot_injective {a b : List Octet} (h : snapshot a = snapshot b) : a = b := by
  induction a generalizing b with
  | nil =>
    have := congrArg List.length h
    cases b with
    | nil => rfl
    | cons o b => simp at this; omega
  | cons o a ih =>
    cases b with
    | nil => simpa using congrArg List.length h
    | cons o' b =>
      rw [snapshot_cons, snapshot_cons] at h
      obtain ⟨h1, h2⟩ := List.append_inj h (by simp)
      rw [octetBits_injective h1, ih h2]

end Sys2Proof.Machine
end

