-- ==== Sys2Proof/Laws/Classifier.lean ====
section
/-! SUPPORT. Laws/Classifier: when a sequence is well formed, when a row matches, and everything `Deliver` can do
(R74, R131 to R140, R159). -/

namespace Sys2Proof.Machine

/-- The acceptance test of R74, condition by condition. -/
theorem wellFormed_iff (p : Params) (x : List Octet) :
    wellFormed p x = true ↔ 6 ≤ x.length ∧ x[0]? = some Config.start ∧ x[3]? = some Config.start ∧ x[1]? = x[2]? ∧
      x.length = frameLength (lengthOctet x) ∧ validAccepts p.valid x = true := by
  simp only [wellFormed, Bool.and_eq_true, decide_eq_true_eq, beq_iff_eq, and_assoc]

/-- `Match(row, s)`, test by test (R133). -/
theorem testsHold_iff (ts : List (Octet × Octet)) (x : List Octet) :
    testsHold ts x = true ↔ ts.length ≤ x.length ∧ ∀ k m v, ts[k]? = some (m, v) → x.getD k 0 &&& m = v := by
  induction ts generalizing x with
  | nil => simp [testsHold]
  | cons t ts ih =>
    obtain ⟨m, v⟩ := t
    cases x with
    | nil => simp [testsHold]
    | cons o os =>
      simp only [testsHold, Bool.and_eq_true, beq_iff_eq, ih, List.length_cons, Nat.add_le_add_iff_right]
      constructor
      · rintro ⟨h0, hl, hs⟩
        refine ⟨hl, fun k m' v' hk => ?_⟩
        cases k with
        | zero => simp only [List.getElem?_cons_zero, Option.some.injEq, Prod.mk.injEq] at hk; simpa [← hk.1, ← hk.2] using h0
        | succ k => simpa using hs k m' v' (by simpa using hk)
      · rintro ⟨hl, hs⟩
        exact ⟨by simpa using hs 0 m v rfl, hl, fun k m' v' hk => by simpa using hs (k + 1) m' v' (by simpa using hk)⟩

/-- A malformed sequence is `Invalid` (R132). -/
theorem classify_malformed {p : Params} {x : List Octet} (h : wellFormed p x = false) : classify p x = .invalid := by
  simp [classify, h]

/-- Every row of a legal table has one of the 23 tags (R5, R133). -/
theorem classRow_tag (p : Configuration) {row : ClassRow} (h : row ∈ p.classTable) : row.tag.mayBeInTable = true := by
  have hok := p.isOk
  simp only [Params.ok, Bool.and_eq_true, List.all_eq_true] at hok
  have := hok.1.1.2 row h
  simp only [ClassRow.ok, Bool.and_eq_true] at this
  exact this.2

/-- A well-formed frame never has the tag `Invalid` (R136). -/
theorem classify_ne_invalid (p : Configuration) {x : List Octet} (h : wellFormed p.toParams x = true) :
    classify p.toParams x ≠ .invalid := by
  simp only [classify, h, if_true]
  cases hf : p.classTable.find? fun row => rowMatches row x with
  | none => simp
  | some row =>
    intro hi
    have hi : row.tag = .invalid := hi
    have := classRow_tag p (List.mem_of_find?_eq_some hf)
    rw [hi] at this
    cases this

/-- The passes of `Deliver` from a state on: rows in table order (R139). -/
abbrev passes (u : List Octet) (rows : List GroupRow) (s : State) : State := rows.foldl (deliverRow u) s

section Passes

variable (u : List Octet) (rows : List GroupRow) (s : State)

/-- What the passes leave alone: everything but the snapshots and the event stream (R152). -/
theorem passes_frame : (passes u rows s).cfg = s.cfg ∧ (passes u rows s).buf = s.buf ∧
    (passes u rows s).iter = s.iter ∧ (passes u rows s).refresh = s.refresh ∧
    (passes u rows s).lastTag = s.lastTag ∧ (passes u rows s).lastDrop = s.lastDrop ∧
    (passes u rows s).lastErr = s.lastErr ∧ (passes u rows s).input = s.input := by
  induction rows generalizing s with
  | nil => simp
  | cons r rows ih => simpa [deliverRow] using ih (deliverRow u s r)

@[simp] theorem passes_cfg : (passes u rows s).cfg = s.cfg := (passes_frame u rows s).1
@[simp] theorem passes_buf : (passes u rows s).buf = s.buf := (passes_frame u rows s).2.1
@[simp] theorem passes_iter : (passes u rows s).iter = s.iter := (passes_frame u rows s).2.2.1
@[simp] theorem passes_refresh : (passes u rows s).refresh = s.refresh := (passes_frame u rows s).2.2.2.1
@[simp] theorem passes_lastTag : (passes u rows s).lastTag = s.lastTag := (passes_frame u rows s).2.2.2.2.1
@[simp] theorem passes_lastDrop : (passes u rows s).lastDrop = s.lastDrop := (passes_frame u rows s).2.2.2.2.2.1
@[simp] theorem passes_lastErr : (passes u rows s).lastErr = s.lastErr := (passes_frame u rows s).2.2.2.2.2.2.1
@[simp] theorem passes_input : (passes u rows s).input = s.input := (passes_frame u rows s).2.2.2.2.2.2.2

/-- The passes append records, each one a record of some row's pass (R60, R139). -/
theorem passes_events : ∃ recs, (passes u rows s).events = s.events ++ recs ∧
    ∀ e ∈ recs, ∃ row ∈ rows, ∃ t : State, t.cfg = s.cfg ∧ e ∈ passRecords t row.group (groupSlice row u) := by
  induction rows generalizing s with
  | nil => exact ⟨[], by simp, by simp⟩
  | cons r rows ih =>
    obtain ⟨recs, hr, hm⟩ := ih (deliverRow u s r)
    refine ⟨passRecords s r.group (groupSlice r u) ++ recs, ?_, ?_⟩
    · simpa [deliverRow] using hr
    · intro e he
      rcases List.mem_append.mp he with he | he
      · exact ⟨r, by simp, s, rfl, he⟩
      · obtain ⟨row, hrow, t, ht, het⟩ := hm e he
        exact ⟨row, by simp [hrow], t, by simpa [deliverRow] using ht, het⟩

/-- After the passes a register is as before or the snapshot of a row's octets (R25, R160). -/
theorem passes_prev (g : Group) : (passes u rows s).prev g = s.prev g ∨
    ∃ row ∈ rows, row.group = g ∧ (passes u rows s).prev g = snapshot (groupSlice row u) := by
  induction rows generalizing s with
  | nil => exact .inl rfl
  | cons r rows ih =>
    rcases ih (deliverRow u s r) with h | ⟨row, hrow, hg, h⟩
    · by_cases hg : g = r.group
      · refine .inr ⟨r, by simp, hg.symm, ?_⟩
        simpa [deliverRow, diffPass_prev, hg] using h
      · exact .inl (by simpa [deliverRow, diffPass_prev, hg] using h)
    · exact .inr ⟨row, by simp [hrow], hg, h⟩

end Passes

/-- The octets of a row are at most its `cnt` (R140). -/
theorem groupSlice_length (row : GroupRow) (u : List Octet) : (groupSlice row u).length ≤ 255 := by
  have := row.cnt.isLt
  simp only [groupSlice, List.length_drop, List.length_take]
  omega

section Deliver

variable (frame : List Octet) (s : State)

/-- `Deliver` in one line, by its named parts (R139). -/
theorem deliver_eq : deliver frame s = settleRefresh (classify s.cfg.toParams frame)
    (passes (userData frame) (rowsFor s.cfg.toParams (classify s.cfg.toParams frame))
      (announce frame (classify s.cfg.toParams frame) s)) := rfl

@[simp] theorem deliver_cfg : (deliver frame s).cfg = s.cfg := by
  rw [deliver_eq]; unfold settleRefresh; split <;> simp [announce]
@[simp] theorem deliver_buf : (deliver frame s).buf = s.buf := by
  rw [deliver_eq]; unfold settleRefresh; split <;> simp [announce]
@[simp] theorem deliver_iter : (deliver frame s).iter = s.iter := by
  rw [deliver_eq]; unfold settleRefresh; split <;> simp [announce]
@[simp] theorem deliver_lastDrop : (deliver frame s).lastDrop = s.lastDrop := by
  rw [deliver_eq]; unfold settleRefresh; split <;> simp [announce]
@[simp] theorem deliver_lastErr : (deliver frame s).lastErr = s.lastErr := by
  rw [deliver_eq]; unfold settleRefresh; split <;> simp [announce]
@[simp] theorem deliver_input : (deliver frame s).input = s.input := by
  rw [deliver_eq]; unfold settleRefresh; split <;> simp [announce]
@[simp] theorem deliver_lastTag : (deliver frame s).lastTag = (classify s.cfg.toParams frame).code := by
  rw [deliver_eq]; unfold settleRefresh; split <;> simp [announce]

/-- `Deliver` clears `REFRESH` for an `SbStatus` Telegram and otherwise leaves it (R159). -/
theorem deliver_refresh :
    (deliver frame s).refresh = if classify s.cfg.toParams frame = .sbStatus then false else s.refresh := by
  rw [deliver_eq]; unfold settleRefresh; split <;> simp [announce]

/-- `Deliver` appends the `TG` record, then records of the tag's rows (R60 (e), R139). -/
theorem deliver_events : ∃ recs, (deliver frame s).events = s.events ++
      .tg (classify s.cfg.toParams frame) (hintOf (classify s.cfg.toParams frame))
        (destOf (classify s.cfg.toParams frame)) frame :: recs ∧
    ∀ e ∈ recs, ∃ row : GroupRow, ∃ t : State,
      t.cfg = s.cfg ∧ e ∈ passRecords t row.group (groupSlice row (userData frame)) := by
  obtain ⟨recs, hr, hm⟩ := passes_events (userData frame)
    (rowsFor s.cfg.toParams (classify s.cfg.toParams frame)) (announce frame (classify s.cfg.toParams frame) s)
  refine ⟨recs, ?_, fun e he => ?_⟩
  · have : (deliver frame s).events = (passes (userData frame)
        (rowsFor s.cfg.toParams (classify s.cfg.toParams frame))
        (announce frame (classify s.cfg.toParams frame) s)).events := by
      rw [deliver_eq]; unfold settleRefresh; split <;> rfl
    rw [this, hr]
    simp [announce]
  · obtain ⟨row, -, t, ht, het⟩ := hm e he
    exact ⟨row, t, ht, het⟩

/-- After `Deliver` a register is as before or the snapshot of at most 255 octets (R24, R160). -/
theorem deliver_prev (g : Group) :
    (deliver frame s).prev g = s.prev g ∨ ∃ n : List Octet, n.length ≤ 255 ∧ (deliver frame s).prev g = snapshot n := by
  have h : (deliver frame s).prev = (passes (userData frame)
      (rowsFor s.cfg.toParams (classify s.cfg.toParams frame))
      (announce frame (classify s.cfg.toParams frame) s)).prev := by
    rw [deliver_eq]; unfold settleRefresh; split
    · exact prev_congr rfl rfl rfl rfl
    · rfl
  rw [h]
  rcases passes_prev (userData frame) (rowsFor s.cfg.toParams (classify s.cfg.toParams frame))
      (announce frame (classify s.cfg.toParams frame) s) g with h | ⟨row, -, -, h⟩
  · exact .inl (by rw [h, announce, emit_prev]; cases g <;> rfl)
  · exact .inr ⟨_, groupSlice_length row _, h⟩

end Deliver

end Sys2Proof.Machine
end

