-- ==== Sys2Proof/Laws/Memory.lean ====
section
/-! SUPPORT. Laws/Memory: the buffer as a memory: its canonical form, and reads after its three mutations (R50, R51). -/

namespace Sys2Proof.Machine

/-- The cells of a buffer are always in canonical form, so every memory operation keeps it: each yields a buffer. -/
theorem cells_wf (m : Memory) : Memory.wf m.cells := by
  simp only [Memory.wf, Memory.cells, List.map_map, List.length_map, List.length_zipIdx]
  apply List.ext_getElem <;> simp

/-- The reset buffer lists nothing (R34). -/
theorem reset_cells : Memory.cells State.reset.buf = [] := rfl

/-- An address beyond the buffer holds nothing (R32). -/
theorem read_eq_none {m : Memory} {a : Nat} (h : m.length ≤ a) : m.read a = none := List.getElem?_eq_none h

/-- `BufAppend` leaves every octet of the buffer alone (R51). -/
theorem read_append_left {m : Memory} {a : Nat} (c : List Octet) (h : a < m.length) :
    Memory.read (bufAppend m c) a = m.read a := List.getElem?_append_left h

/-- `BufAppend` puts octet j of the chunk at index `BLEN + j` (R51). -/
theorem read_append_right (m : Memory) (chunk : List Octet) (j : Nat) :
    Memory.read (bufAppend m chunk) (m.length + j) = chunk[j]? := by
  simp only [Memory.read, bufAppend]
  rw [List.getElem?_append_right (by omega)]
  congr 1
  omega

/-- After `BufDrop(n)` index a is what index `n + a` was (R51). -/
theorem read_drop (m : Memory) (n a : Nat) : Memory.read (bufDrop m n) a = m.read (n + a) := List.getElem?_drop

/-- A defined `MemRead` gives n octets (R50). -/
theorem memRead_length {m : Memory} {a n : Nat} {v : List Octet} (h : memRead m a n = some v) : v.length = n := by
  unfold memRead at h
  split at h
  · cases h
    simp only [List.length_take, List.length_drop]
    omega
  · cases h

/-- `MemRead(0, n)` is the first n octets, when they are there (R50). -/
theorem memRead_zero (m : Memory) (n : Nat) : memRead m 0 n = if n ≤ m.length then some (m.take n) else none := by
  simp [memRead]

end Sys2Proof.Machine
end

