-- ==== Sys2Proof/Laws/Accumulator.lean ====
section
/-! SUPPORT. Laws/Accumulator: the detection pass case by case, and everything `RX` can do (R101 to R113). -/

namespace Sys2Proof.Machine

/-- A candidate, condition by condition (R103). -/
theorem isCandidate_iff (b : Memory) :
    isCandidate b = true ↔ 4 ≤ b.length ∧ b[0]? = some Config.start ∧ b[3]? = some Config.start := by
  simp only [isCandidate, Bool.and_eq_true, decide_eq_true_eq, beq_iff_eq, and_assoc]

/-- A buffer of less than four octets waits (R103). -/
theorem detect_short {p : Params} {b : Memory} (h : b.length < 4) : detect p b = .wait := by simp [detect, h]

/-- Four octets that are no header: not a candidate (R104). -/
theorem detect_noCand {p : Params} {b : Memory} (h4 : 4 ≤ b.length) (h : isCandidate b = false) :
    detect p b = .noCand := by
  simp [detect, h, Nat.not_lt.mpr h4]

/-- A candidate whose length octets differ is dropped at once (R105). -/
theorem detect_dropLen {p : Params} {b : Memory} (hc : isCandidate b = true) (h : lengthsAgree b = false) :
    detect p b = .dropLen := by
  have h4 := ((isCandidate_iff b).mp hc).1
  simp [detect, hc, h, Nat.not_lt.mpr h4]

/-- A candidate with agreeing length octets waits until it is complete, and is then checked (R106, R107). -/
theorem detect_candidate {p : Params} {b : Memory} (hc : isCandidate b = true) (h : lengthsAgree b = true) :
    detect p b = if frameLength (lengthOctet b) ≤ b.length then
      (if validAccepts p.valid (b.take (frameLength (lengthOctet b))) then
        .emit (b.take (frameLength (lengthOctet b))) else .dropCheck) else .wait := by
  have h4 := ((isCandidate_iff b).mp hc).1
  by_cases hle : frameLength (lengthOctet b) ≤ b.length <;>
    simp [detect, hc, h, Nat.not_lt.mpr h4, memRead_zero, hle]

/-- The frame of an `EMIT` is the head of the buffer, and it is well formed (R74, R109, R136). -/
theorem detect_emit {p : Params} {b : Memory} {frame : List Octet} (h : detect p b = .emit frame) :
    wellFormed p frame = true ∧ frame = b.take frame.length ∧ frame.length ≤ b.length := by
  unfold detect at h
  split at h
  · cases h
  split at h
  · cases h
  rename_i hc
  split at h
  · cases h
  rename_i ha
  rw [memRead_zero] at h
  by_cases hle : frameLength (lengthOctet b) ≤ b.length
  · simp only [hle, if_true] at h
    split at h
    · rename_i hv
      injection h with h
      have hc : isCandidate b = true := by simpa using hc
      have ha : lengthsAgree b = true := by simpa using ha
      obtain ⟨h4, h0, h3⟩ := (isCandidate_iff b).mp hc
      simp only [lengthsAgree, beq_iff_eq] at ha
      have hfl : 6 ≤ frameLength (lengthOctet b) := by simp [frameLength]
      have hlen : frame.length = frameLength (lengthOctet b) := by rw [← h]; simp [hle]
      have hget : ∀ i, i < 6 → frame[i]? = b[i]? := by
        intro i hi
        rw [← h, List.getElem?_take_of_lt (by omega)]
      have hL : lengthOctet frame = lengthOctet b := by
        simp only [lengthOctet, List.getD_eq_getElem?_getD, hget 1 (by omega)]
      refine ⟨?_, by rw [hlen, h], by omega⟩
      rw [wellFormed_iff, hget 0 (by omega), hget 1 (by omega), hget 2 (by omega), hget 3 (by omega), hL, ← h]
      exact ⟨by rw [h]; omega, h0, h3, ha, by rw [h]; exact hlen, hv⟩
    · cases h
  · simp [hle] at h

/-- All the anti-runaway step can do (R111). -/
theorem antiRunaway_cases (k : Nat) (s : State) :
    (s.cfg.iterMax ≤ k ∧ s.buf ≠ [] ∧ antiRunaway k s = raiseDrop .runaway s.blen s.clearBuffer) ∨
    (s.cfg.iterMax ≤ k ∧ s.buf = [] ∧ antiRunaway k s = s.clearBuffer) ∨
    (k < s.cfg.iterMax ∧ antiRunaway k s = { s with iter := BitVec.ofNat 16 k }) := by
  unfold antiRunaway
  split
  · split
    · rename_i h1 h2
      exact .inl ⟨h1, by rintro h; simp [h] at h2, rfl⟩
    · rename_i h1 h2
      exact .inr (.inl ⟨h1, by simpa using h2, rfl⟩)
  · rename_i h1
    exact .inr (.inr ⟨by omega, rfl⟩)

/-- ALL THAT `RX` CAN DO: drop with the buffer cleared, clear an empty buffer's counter, wait with the chunk appended, or
deliver the frame at the head of the buffer (R100, R113). -/
theorem rx_cases (c : List Octet) (s : State) :
    (∃ reason cnt, rx c s = raiseDrop reason cnt s.clearBuffer) ∨
    (s.buf = [] ∧ c = [] ∧ rx c s = s.clearBuffer) ∨
    (overflows s c = false ∧ s.iter.toNat + 1 < s.cfg.iterMax ∧
      rx c s = { s with buf := s.buf ++ c, iter := BitVec.ofNat 16 (s.iter.toNat + 1) }) ∨
    (overflows s c = false ∧ ∃ frame, detect s.cfg.toParams (s.buf ++ c) = .emit frame ∧
      rx c s = deliver frame { s with buf := (s.buf ++ c).drop frame.length, iter := 0 }) := by
  unfold rx
  split
  · exact .inl ⟨_, _, rfl⟩
  rename_i ho
  have ho : overflows s c = false := by simpa using ho
  have hrun : (∃ reason cnt, antiRunaway (s.iter.toNat + 1) (s.append c) = raiseDrop reason cnt s.clearBuffer) ∨
      (s.buf = [] ∧ c = [] ∧ antiRunaway (s.iter.toNat + 1) (s.append c) = s.clearBuffer) ∨
      (s.iter.toNat + 1 < s.cfg.iterMax ∧ antiRunaway (s.iter.toNat + 1) (s.append c) =
        { s with buf := s.buf ++ c, iter := BitVec.ofNat 16 (s.iter.toNat + 1) }) := by
    rcases antiRunaway_cases (s.iter.toNat + 1) (s.append c) with ⟨-, -, h⟩ | ⟨-, hb, h⟩ | ⟨hk, h⟩
    · exact .inl ⟨_, _, h⟩
    · have : s.buf = [] ∧ c = [] := by simpa using hb
      exact .inr (.inl ⟨this.1, this.2, h⟩)
    · exact .inr (.inr ⟨hk, h⟩)
  unfold rxDetect
  cases hd : detect (s.append c).cfg.toParams (s.append c).buf with
  | wait =>
    rcases hrun with h | h | ⟨hk, h⟩
    · exact .inl h
    · exact .inr (.inl h)
    · exact .inr (.inr (.inl ⟨ho, hk, h⟩))
  | noCand =>
    rcases hrun with h | h | ⟨hk, h⟩
    · exact .inl h
    · exact .inr (.inl h)
    · exact .inr (.inr (.inl ⟨ho, hk, h⟩))
  | dropLen => exact .inl ⟨_, _, rfl⟩
  | dropCheck => exact .inl ⟨_, _, rfl⟩
  | emit frame => exact .inr (.inr (.inr ⟨ho, frame, hd, rfl⟩))

/-- `RX` never writes the parameters, the command stream or `LASTERR` (R100). -/
theorem rx_frame (c : List Octet) (s : State) :
    (rx c s).cfg = s.cfg ∧ (rx c s).input = s.input ∧ (rx c s).lastErr = s.lastErr := by
  rcases rx_cases c s with ⟨r, n, h⟩ | ⟨-, -, h⟩ | ⟨-, -, h⟩ | ⟨-, f, -, h⟩ <;> simp [h]

end Sys2Proof.Machine
end

