-- ==== Sys2Proof/Laws/Config.lean ====
section
/-! SUPPORT. Laws/Config: the constraints of R5 that every parameter set a block can have meets, as facts. -/

namespace Sys2Proof

/-- `ITER_MAX` is 1 to 65535 (R5). -/
theorem Configuration.iterMax_range (p : Configuration) : 1 ≤ p.iterMax ∧ p.iterMax ≤ 65535 := by
  have h := p.isOk
  simp only [Params.ok, Bool.and_eq_true, decide_eq_true_eq] at h
  exact h.1.1.1.1.1.1.1.1

/-- A finite `BUF_CAP` holds a frame of any length (R5). -/
theorem Configuration.bufCap_ge (p : Configuration) {cap : Nat} (h : p.bufCap = some cap) : 261 ≤ cap := by
  have hok := p.isOk
  simp only [Params.ok, Bool.and_eq_true, decide_eq_true_eq, Params.capOk, h] at hok
  exact hok.1.1.1.1.1.1.1.2

/-- No event address wraps: `BASE[g] + 2040 < 2^16` (R5). -/
theorem Configuration.base_lt (p : Configuration) (g : Group) : p.base g + 2040 < 65536 := by
  have h := p.isOk
  simp only [Params.ok, Bool.and_eq_true, decide_eq_true_eq] at h
  cases g
  · exact h.1.1.1.1.1.1.2
  · exact h.1.1.1.1.1.2
  · exact h.1.1.1.1.2
  · exact h.1.1.1.2

/-- A set that breaks a constraint is refused, and only such a set is (R5). -/
theorem Params.configure_isSome (p : Params) : p.configure.isSome = p.ok := by
  unfold Params.configure
  split <;> simp_all

end Sys2Proof
end

