-- ==== Sys2Proof/Laws/Decode.lean ====
section
/-! SUPPORT. Laws/Decode: data words, the fields of a command word, and everything the decoder can answer
(R79 to R85). -/

namespace Sys2Proof

/-- A data word carries its octet (R79). -/
@[simp] theorem dataOctet_dataWord (o : Octet) : dataOctet (dataWord o) = some o := by
  revert o
  decide

/-- Data words carry their octets, in order (R81). -/
@[simp] theorem dataOctets_map (os : List Octet) : dataOctets (os.map dataWord) = some os := by
  induction os with
  | nil => rfl
  | cons o os ih => simp [dataOctets, ih]

/-- A data word that carries an octet is that octet's data word (R79). -/
theorem dataOctet_eq_some {w : Word} {o : Octet} (h : dataOctet w = some o) : w = dataWord o := by
  unfold dataOctet at h
  split at h
  · rename_i hz
    injection h with h
    subst h
    apply BitVec.eq_of_getLsbD_eq
    intro i hi
    simp only [dataWord, BitVec.getLsbD_append, BitVec.getLsbD_extractLsb']
    by_cases h8 : i < 8
    · simp [h8]
    · have := congrArg (fun x => x.getLsbD (i - 8)) hz
      simp only [BitVec.getLsbD_extractLsb'] at this
      have h8' : i - 8 < 8 := by omega
      rw [show 8 + (i - 8) = i by omega] at this
      simpa [h8, h8'] using this
  · cases h

/-- Words that carry octets are those octets' data words (R79, R81). -/
theorem dataOctets_eq_some {ws : List Word} {os : List Octet} (h : dataOctets ws = some os) : ws = os.map dataWord := by
  induction ws generalizing os with
  | nil => cases h; rfl
  | cons w ws ih =>
    simp only [dataOctets] at h
    cases h1 : dataOctet w with
    | none => simp [h1] at h
    | some o =>
      cases h2 : dataOctets ws with
      | none => simp [h1, h2] at h
      | some os' =>
        simp only [h1, h2, Option.some.injEq] at h
        subst h
        rw [List.map_cons, ← dataOctet_eq_some h1, ← ih h2]

/-- A bad data word spoils the operation wherever it stands (R84 (c)). -/
theorem dataOctets_bad {ws : List Word} {w : Word} (hw : w ∈ ws) (hb : dataOctet w = none) : dataOctets ws = none := by
  induction ws with
  | nil => cases hw
  | cons v ws ih =>
    rcases List.mem_cons.mp hw with rfl | hw
    · simp [dataOctets, hb]
    · simp [dataOctets, ih hw]

/-- An encoding is as long as R80 says: one word and the data words. -/
@[simp] theorem encode_length (i : Instr) : (encode i).length = 1 + (dataOf i).length := by simp [encode]; omega

/-- Decoding a stream that holds all the words of its first operation (R80, R84, R85). -/
theorem decode_cons {w : Word} {data rest : List Word} (h : data.length = dataCount w) :
    decode (w :: (data ++ rest)) =
      match selectRow w with
      | none => .bad (rowError w) w rest
      | some m =>
        match assemble m w data with
        | none => .bad .badData w rest
        | some i => .instr i rest := by
  have h1 : ¬ (data ++ rest).length < dataCount w := by simp; omega
  simp only [decode, if_neg h1]
  rw [← h, List.take_left, List.drop_left]
  all_goals rfl

/-- Decoding a stream that ends too soon (R85). -/
theorem decode_wait {w : Word} {rest : List Word} (h : rest.length < dataCount w) : decode (w :: rest) = .wait := by
  simp [decode, h]

/-- ALL THE DECODER CAN ANSWER: wait on a stream too short, or the result of the first operation's own words, with the
words after them left (R80, R85). -/
theorem decode_cases (ws : List Word) :
    (ws = [] ∧ decode ws = .wait) ∨
    (∃ w rest, ws = w :: rest ∧ rest.length < dataCount w ∧ decode ws = .wait) ∨
    (∃ w data rest, ws = w :: (data ++ rest) ∧ data.length = dataCount w ∧
      ((∃ c, decode ws = .bad c w rest) ∨ ∃ i, decode ws = .instr i rest)) := by
  cases ws with
  | nil => exact .inl ⟨rfl, rfl⟩
  | cons w rest =>
    by_cases h : rest.length < dataCount w
    · exact .inr (.inl ⟨w, rest, rfl, h, decode_wait h⟩)
    · have hl : (rest.take (dataCount w)).length = dataCount w := by simp; omega
      refine .inr (.inr ⟨w, rest.take (dataCount w), rest.drop (dataCount w), by simp, hl, ?_⟩)
      have := decode_cons (rest := rest.drop (dataCount w)) hl
      rw [List.take_append_drop] at this
      rw [this]
      split
      · exact .inl ⟨_, rfl⟩
      · split
        · exact .inl ⟨_, rfl⟩
        · exact .inr ⟨_, rfl⟩

end Sys2Proof
end

