-- ==== Sys2Proof/Laws/PerInstr.lean ====
section
/-! SUPPORT. Laws/PerInstr: the family `EncodeLength`: the number of data words a decoder reads off an encoded command
word is the number of data words the encoder wrote (R80, R85). -/

namespace Sys2Proof.Laws.EncodeLength

/-- The command word of a well-formed operation counts its data octets (R85). -/
def Statement (i : Instr) : Prop := i.wf = true → dataCount (commandWord i) = (dataOf i).length

/-- A 12-bit count field is read back (R81). -/
theorem count_field (op : BitVec 4) (h : op = 1 ∨ op = 2) (n : Nat) (hn : n ≤ 4095) :
    dataCount (op ++ BitVec.ofNat 12 n) = n := by
  have h1 : opField (op ++ BitVec.ofNat 12 n) = op := BitVec.extractLsb'_append_eq_left
  have h2 : argField (op ++ BitVec.ofNat 12 n) = BitVec.ofNat 12 n := BitVec.extractLsb'_append_eq_right
  simp only [dataCount, h1, h2, h, if_true, BitVec.toNat_ofNat]
  omega

theorem rx (c : List Octet) : Statement (.rx c) := fun h => count_field 1 (.inl rfl) _ (by simpa [Instr.wf] using h)

theorem cls (x : List Octet) : Statement (.cls x) := fun h => count_field 2 (.inr rfl) _ (by simpa [Instr.wf] using h)

theorem diff (g : Group) (n : List Octet) : Statement (.diff g n) := by
  intro h
  have hn : n.length ≤ 255 := by simpa [Instr.wf] using h
  have h1 : opField (commandWord (.diff g n)) = 3 := by
    apply BitVec.eq_of_getLsbD_eq
    intro i hi
    simp only [opField, commandWord, BitVec.getLsbD_extractLsb', BitVec.getLsbD_append]
    have e1 : ¬ (12 + i < 8) := by omega
    have e2 : ¬ (12 + i - 8 < 2) := by omega
    have e3 : ¬ (12 + i - 8 - 2 < 2) := by omega
    have e4 : 12 + i - 8 - 2 - 2 = i := by omega
    simp [hi, e1, e2, e3, e4]
  have h2 : diffCountField (commandWord (.diff g n)) = BitVec.ofNat 8 n.length :=
    BitVec.extractLsb'_append_eq_right
  simp only [dataCount, h1, h2, BitVec.toNat_ofNat, dataOf]
  rw [if_neg (by decide), if_pos trivial]
  exact Nat.mod_eq_of_lt (by omega)

theorem setref : Statement .setref := fun _ => by decide

theorem rds (r : BitVec 4) : Statement (.rds r) := fun _ => by revert r; decide

theorem reset : Statement .reset := fun _ => by decide

end Sys2Proof.Laws.EncodeLength
end

