-- ==== Sys2Proof/Laws/Step.lean ====
section
/-! SUPPORT. Laws/Step: everything a step can do (R6, R84, R85, R202). -/

namespace Sys2Proof.Machine

/-- `exec` always answers a next state (R202). -/
theorem exec_next (i : Instr) (s : State) : ∃ t, exec i s = .next t := by
  cases i with
  | rds r =>
    simp only [exec, execRds]
    split <;> exact ⟨_, rfl⟩
  | rx c => exact ⟨_, rfl⟩
  | cls x => exact ⟨_, rfl⟩
  | diff g n => exact ⟨_, rfl⟩
  | setref => exact ⟨_, rfl⟩
  | reset => exact ⟨_, rfl⟩

/-- All that `RDS` can do (R182). -/
theorem execRds_cases (r : BitVec 4) (s : State) :
    (∃ v, statusReg s r = some v ∧ execRds r s = .next (s.emit (.csrv r v))) ∨
    (statusReg s r = none ∧ execRds r s = .next (raiseErr .badOperand (commandWord (.rds r)) s)) := by
  unfold execRds
  cases h : statusReg s r with
  | none => exact .inr ⟨rfl, rfl⟩
  | some v => exact .inl ⟨v, rfl, rfl⟩

/-- A `next` answers one state. -/
theorem next_inj {s t : State} (h : (Host.Outcome.next s : Host.Outcome State Fault Refusal) = .next t) : s = t := by
  injection h

/-- No operation touches the parameters or the command words after its own (R21). -/
theorem exec_outside {i : Instr} {s t : State} (h : exec i s = .next t) : t.cfg = s.cfg ∧ t.input = s.input := by
  cases i with
  | rx c => rw [← next_inj h]; exact ⟨(rx_frame c s).1, (rx_frame c s).2.1⟩
  | cls x => rw [← next_inj h]; simp
  | diff g n => rw [← next_inj h]; simp
  | setref => rw [← next_inj h]; simp
  | rds r =>
    rcases execRds_cases r s with ⟨v, -, hv⟩ | ⟨-, hv⟩
    · rw [← next_inj (hv.symm.trans h)]; simp
    · rw [← next_inj (hv.symm.trans h)]; simp
  | reset => rw [← next_inj h]; simp

/-- Every operation only appends to the event stream (R21). -/
theorem exec_events {i : Instr} {s t : State} (h : exec i s = .next t) : ∃ recs, t.events = s.events ++ recs := by
  cases i with
  | rx c =>
    rw [← next_inj h]
    rcases rx_cases c s with ⟨r, n, h⟩ | ⟨-, -, h⟩ | ⟨-, -, h⟩ | ⟨-, f, -, h⟩
    · exact ⟨[.drop r n], by simp [h]⟩
    · exact ⟨[], by simp [h]⟩
    · exact ⟨[], by simp [h]⟩
    · obtain ⟨recs, he, -⟩ := deliver_events f { s with buf := (s.buf ++ c).drop f.length, iter := 0 }
      exact ⟨_, h ▸ he⟩
  | cls x => rw [← next_inj h]; exact ⟨_, rfl⟩
  | diff g n => rw [← next_inj h]; exact ⟨_, diffPass_events g n s⟩
  | setref => rw [← next_inj h]; exact ⟨[], by simp⟩
  | rds r =>
    rcases execRds_cases r s with ⟨v, -, hv⟩ | ⟨-, hv⟩
    · rw [← next_inj (hv.symm.trans h)]; exact ⟨_, rfl⟩
    · rw [← next_inj (hv.symm.trans h)]; exact ⟨_, rfl⟩
  | reset => rw [← next_inj h]; exact ⟨[], by simp⟩

/-- ALL THAT A STEP CAN DO: wait, refuse the operation at the head of the stream, or execute it (R84, R85, R197). -/
theorem step_cases {s t : State} (h : step s = .next t) :
    (decode s.input = .wait ∧ t = s) ∨
    (∃ code word rest, decode s.input = .bad code word rest ∧ t = raiseErr code word { s with input := rest }) ∨
    (∃ i rest, decode s.input = .instr i rest ∧ exec i { s with input := rest } = .next t) := by
  unfold step at h
  cases hd : decode s.input with
  | wait =>
    simp only [hd] at h
    injection h with h
    exact .inl ⟨rfl, h.symm⟩
  | bad c w r =>
    simp only [hd] at h
    injection h with h
    exact .inr (.inl ⟨c, w, r, rfl, h.symm⟩)
  | instr i r =>
    simp only [hd] at h
    exact .inr (.inr ⟨i, r, rfl, h⟩)

/-- A property of two states that holds where nothing happens, of every refusal and of every operation holds of every
step. -/
theorem step_induction {P : State → State → Prop} (refl : ∀ s, P s s)
    (bad : ∀ s code word rest, decode s.input = .bad code word rest → P s (raiseErr code word { s with input := rest }))
    (op : ∀ s i rest t, decode s.input = .instr i rest → exec i { s with input := rest } = .next t → P s t)
    {s t : State} (h : step s = .next t) : P s t := by
  rcases step_cases h with ⟨-, rfl⟩ | ⟨c, w, r, hd, rfl⟩ | ⟨i, r, hd, he⟩
  · exact refl _
  · exact bad _ _ _ _ hd
  · exact op _ _ _ _ hd he

end Sys2Proof.Machine
end

