-- ==== Sys2Proof/Laws/Words.lean ====
section
/-! SUPPORT. Laws/Words: command words as numbers: their fields, the row they select, the words the encoder writes
(R78 to R81). -/

namespace Sys2Proof

/-- The operation field as a number (R79). -/
theorem opField_toNat (w : Word) : (opField w).toNat = w.toNat / 4096 := by
  have := w.isLt
  simp only [opField, BitVec.extractLsb'_toNat, Nat.shiftRight_eq_div_pow]; omega

/-- The argument field as a number (R79). -/
theorem argField_toNat (w : Word) : (argField w).toNat = w.toNat % 4096 := by
  simp [argField, BitVec.extractLsb'_toNat]

/-- The count of `DIFF` as a number (R81). -/
theorem diffCountField_toNat (w : Word) : (diffCountField w).toNat = w.toNat % 256 := by
  simp [diffCountField, BitVec.extractLsb'_toNat]

/-- Comparing the operation field (R80). -/
theorem opField_eq_iff (w : Word) (k : BitVec 4) : opField w = k ↔ w.toNat / 4096 = k.toNat := by
  rw [← opField_toNat]; exact BitVec.toNat_inj.symm

/-- A mask that keeps the bits from k up. -/
theorem and_highMask_toNat (w : Word) (k : Nat) (hk : k ≤ 16) :
    (w &&& BitVec.ofNat 16 (65536 - 2 ^ k)).toNat = w.toNat / 2 ^ k * 2 ^ k := by
  have hw := w.isLt
  have h : ∀ i, (w &&& BitVec.ofNat 16 (65536 - 2 ^ k)).getLsbD i = (w >>> k <<< k).getLsbD i := by
    intro i
    simp only [BitVec.getLsbD_and, BitVec.getLsbD_shiftLeft, BitVec.getLsbD_ushiftRight, BitVec.getLsbD_ofNat]
    by_cases hi : i < 16
    · have ht : (65536 - 2 ^ k).testBit i = decide (k ≤ i) := by
        have hall : ∀ k i : Fin 17, i.val < 16 → (65536 - 2 ^ k.val).testBit i.val = decide (k.val ≤ i.val) := by decide
        exact hall ⟨k, by omega⟩ ⟨i, by omega⟩ hi
      rw [ht]
      by_cases hki : k ≤ i
      · simp [hi, hki, show ¬ i < k by omega, show k + (i - k) = i by omega]
      · simp [hi, hki, show i < k by omega]
    · have : w.getLsbD i = false := BitVec.getLsbD_of_ge _ _ (by omega)
      simp [hi, this]
  have he : w &&& BitVec.ofNat 16 (65536 - 2 ^ k) = w >>> k <<< k := BitVec.eq_of_getLsbD_eq (fun i _ => h i)
  rw [he]
  have hle := Nat.div_mul_le_self w.toNat (2 ^ k)
  simp only [BitVec.toNat_shiftLeft, BitVec.toNat_ushiftRight, Nat.shiftRight_eq_div_pow, Nat.shiftLeft_eq]
  omega

/-- A row whose mask keeps the bits from k up (R80). -/
theorem selects_iff (m : Mnemonic) (v : Word) (k : Nat) (hk : k ≤ 16) (w : Word) :
    OpRow.selects ⟨m, v, BitVec.ofNat 16 (65536 - 2 ^ k)⟩ w = true ↔ w.toNat / 2 ^ k * 2 ^ k = v.toNat := by
  simp only [OpRow.selects, beq_iff_eq]
  rw [← BitVec.toNat_inj, and_highMask_toNat w k hk]

/-- The row a word selects, told from the word as a number (R80). -/
theorem selectRow_eq (w : Word) : selectRow w =
    if w.toNat / 4096 = 1 then some .rx else if w.toNat / 4096 = 2 then some .cls
    else if w.toNat / 1024 = 12 then some .diff else if w.toNat = 0x4000 then some .setref
    else if w.toNat / 16 = 0x500 then some .rds else if w.toNat = 0xF000 then some .reset else none := by
  have h1 := selects_iff .rx 0x1000 12 (by decide) w
  have h2 := selects_iff .cls 0x2000 12 (by decide) w
  have h3 := selects_iff .diff 0x3000 10 (by decide) w
  have h4 := selects_iff .setref 0x4000 0 (by decide) w
  have h5 := selects_iff .rds 0x5000 4 (by decide) w
  have h6 := selects_iff .reset 0xF000 0 (by decide) w
  have e1 : w.toNat / 2 ^ 12 * 2 ^ 12 = (0x1000 : Word).toNat ↔ w.toNat / 4096 = 1 := by
    rw [show (0x1000 : Word).toNat = 4096 by decide]; omega
  have e2 : w.toNat / 2 ^ 12 * 2 ^ 12 = (0x2000 : Word).toNat ↔ w.toNat / 4096 = 2 := by
    rw [show (0x2000 : Word).toNat = 8192 by decide]; omega
  have e3 : w.toNat / 2 ^ 10 * 2 ^ 10 = (0x3000 : Word).toNat ↔ w.toNat / 1024 = 12 := by
    rw [show (0x3000 : Word).toNat = 12 * 1024 from rfl, show (2 : Nat) ^ 10 = 1024 from rfl]
    exact ⟨fun h => Nat.eq_of_mul_eq_mul_right (by decide) h, fun h => by rw [h]⟩
  have e4 : w.toNat / 2 ^ 0 * 2 ^ 0 = (0x4000 : Word).toNat ↔ w.toNat = 0x4000 := by
    rw [pow_zero, Nat.div_one, Nat.mul_one, show (0x4000 : Word).toNat = 16384 by decide]
  have e5 : w.toNat / 2 ^ 4 * 2 ^ 4 = (0x5000 : Word).toNat ↔ w.toNat / 16 = 0x500 := by
    rw [show (0x5000 : Word).toNat = 20480 by decide]; omega
  have e6 : w.toNat / 2 ^ 0 * 2 ^ 0 = (0xF000 : Word).toNat ↔ w.toNat = 0xF000 := by
    rw [pow_zero, Nat.div_one, Nat.mul_one, show (0xF000 : Word).toNat = 61440 by decide]
  rw [e1] at h1; rw [e2] at h2; rw [e3] at h3; rw [e4] at h4; rw [e5] at h5; rw [e6] at h6
  have f : ∀ {b : Bool} {P : Prop} [Decidable P], (b = true ↔ P) → b = decide P := by
    intro b P _ h; cases b <;> simp at h <;> simp [h]
  unfold selectRow opTable
  simp only [List.find?_cons, List.find?_nil]
  have g1 := f h1; have g2 := f h2; have g3 := f h3; have g4 := f h4; have g5 := f h5; have g6 := f h6
  simp only [show BitVec.ofNat 16 (65536 - 2 ^ 12) = (0xF000 : Word) by decide,
    show BitVec.ofNat 16 (65536 - 2 ^ 10) = (0xFC00 : Word) by decide,
    show BitVec.ofNat 16 (65536 - 2 ^ 0) = (0xFFFF : Word) by decide,
    show BitVec.ofNat 16 (65536 - 2 ^ 4) = (0xFFF0 : Word) by decide] at g1 g2 g3 g4 g5 g6
  rw [g1, g2, g3, g4, g5, g6]
  by_cases c1 : w.toNat / 4096 = 1
  · simp [c1]
  by_cases c2 : w.toNat / 4096 = 2
  · simp [c2]
  by_cases c3 : w.toNat / 1024 = 12
  · simp [c1, c2, c3]
  by_cases c4 : w.toNat = 0x4000
  · simp [c4]
  by_cases c5 : w.toNat / 16 = 0x500
  · simp [c1, c2, c3, c4, c5]
  by_cases c6 : w.toNat = 0xF000
  · simp [c6]
  simp [c1, c2, c3, c4, c5, c6]

/-- Two fields side by side, as a number. -/
theorem append_toNat {m n : Nat} (a : BitVec m) (b : BitVec n) : (a ++ b).toNat = a.toNat * 2 ^ n + b.toNat := by
  rw [BitVec.toNat_append, ← Nat.shiftLeft_add_eq_or_of_lt b.isLt, Nat.shiftLeft_eq]

/-- The command word of `RX` (R80). -/
theorem commandWord_rx_toNat (c : List Octet) (h : c.length ≤ 4095) : (commandWord (.rx c)).toNat = 4096 + c.length := by
  refine (append_toNat (1 : BitVec 4) (BitVec.ofNat 12 c.length)).trans ?_
  rw [BitVec.toNat_ofNat, show (1 : BitVec 4).toNat = 1 by decide]; omega

/-- The command word of `CLS` (R80). -/
theorem commandWord_cls_toNat (c : List Octet) (h : c.length ≤ 4095) : (commandWord (.cls c)).toNat = 8192 + c.length := by
  refine (append_toNat (2 : BitVec 4) (BitVec.ofNat 12 c.length)).trans ?_
  rw [BitVec.toNat_ofNat, show (2 : BitVec 4).toNat = 2 by decide]; omega

/-- The command word of `DIFF` (R80). -/
theorem commandWord_diff_toNat (g : Group) (c : List Octet) (h : c.length ≤ 255) : (commandWord (.diff g c)).toNat =
      12288 + 256 * g.code.toNat + c.length := by
  refine (append_toNat ((3 : BitVec 4) ++ (0 : BitVec 2) ++ g.code) (BitVec.ofNat 8 c.length)).trans ?_
  rw [append_toNat, append_toNat, BitVec.toNat_ofNat, show (3 : BitVec 4).toNat = 3 by decide,
    show (0 : BitVec 2).toNat = 0 by decide]; omega

/-- The command word of `RDS` (R80). -/
theorem commandWord_rds_toNat (r : BitVec 4) : (commandWord (.rds r)).toNat = 0x5000 + r.toNat := by revert r; decide

/-- Group codes and groups, one way (R78). -/
@[simp] theorem ofCode_code (g : Group) : Group.ofCode g.code = g := by cases g <;> decide

/-- Group codes and groups, the other way (R78). -/
@[simp] theorem code_ofCode (c : BitVec 2) : (Group.ofCode c).code = c := by revert c; decide

/-- The group field as a number (R81). -/
theorem groupField_toNat (w : Word) : (groupField w).toNat = w.toNat / 256 % 4 := by
  simp [groupField, BitVec.extractLsb'_toNat, Nat.shiftRight_eq_div_pow]

/-- The register field as a number (R81). -/
theorem regField_toNat (w : Word) : (regField w).toNat = w.toNat % 16 := by
  simp [regField, BitVec.extractLsb'_toNat]

end Sys2Proof
end

