-- ==== Sys2Proof/Tests/Slice0.lean ====
section
/-! SUPPORT. Tests/Slice0: the model held against the spec's own vectors (spec/95_test_vectors.md, cited by section), the
refused terms, and a witness for the hypotheses of every statement. -/

namespace Sys2Proof.Tests

open Machine Spec

/-! ### The example parameter set and small states -/

/-- `CLASS_TABLE_EX` (95 section 0). -/
def tableEx : List ClassRow :=
  [ ⟨[(0, 0), (0, 0), (0, 0), (0, 0), (0xFF, 0xA1)], .mpContacts⟩,
    ⟨[(0, 0), (0, 0), (0, 0), (0, 0), (0xFF, 0xB2)], .sbStatus⟩,
    ⟨[(0, 0), (0xFF, 1), (0, 0), (0, 0), (0xFF, 0xC3)], .sendNorm⟩,
    ⟨[(0, 0), (0, 0), (0, 0), (0, 0), (0xF0, 0xA0)], .alarm⟩ ]

/-- `PEX` as a parameter set, every parameter without a default supplied (95 section 0). -/
def pexParams : Params :=
  { iterMax := 100
    valid := .ck .xor8 none
    endOctet := 0
    classTable := tableEx
    groupMap := [⟨.mpContacts, .mp, 1, 255⟩, ⟨.sbStatus, .sb, 1, 255⟩]
    baseMP := 100
    baseSB := 1
    baseMB := 0
    baseMBD := 0
    blockId := 0 }

/-- `PEX` (95 section 0). -/
def pex : Configuration := { pexParams with }

/-- `PEX` with `ITER_MAX = 3` (95 P5). -/
def pex3 : Configuration := { pexParams with iterMax := 3 }

/-- `PEX` with `BUF_CAP = 261` (95 P6). -/
def pexCap : Configuration := { pexParams with bufCap := some 261 }

/-- The reset state of a block with parameters `p`. -/
def start (p : Configuration) : State := { State.reset with cfg := p }

/-- The reset state under `PEX` with command words waiting. -/
def given (ws : List Word) : State := (start pex).offer ws

/-- The state under `PEX` with octets in the buffer. -/
def holding (b : List Octet) : State := { start pex with buf := b, iter := 1 }

/-- One field of a next state. -/
def look {α : Type} (o : Host.Outcome State Fault Refusal) (f : State → α) : Option α :=
  match o with
  | .next t => some (f t)
  | .fault _ => none
  | .refused _ => none

/-! ### WellFormed: an ill-formed term for each check -/

theorem test_wf_rx_full : (Instr.rx (List.replicate 4095 0)).wf = true := by
  simp only [Instr.wf, List.length_replicate]
  decide
theorem test_wf_rx_refused : (Instr.rx (List.replicate 4096 0)).wf = false := by
  simp only [Instr.wf, List.length_replicate]
  decide
theorem test_wf_cls_refused : (Instr.cls (List.replicate 4096 0)).wf = false := by
  simp only [Instr.wf, List.length_replicate]
  decide
theorem test_wf_diff_full : (Instr.diff .sb (List.replicate 255 0)).wf = true := by
  simp only [Instr.wf, List.length_replicate]
  decide
theorem test_wf_diff_refused : (Instr.diff .mp (List.replicate 256 0)).wf = false := by
  simp only [Instr.wf, List.length_replicate]
  decide

/-! ### Parameter sets the spec refuses (R5, R133, R140) -/

theorem test_pex_accepted : pexParams.ok = true := by decide
theorem test_iterMax_zero_refused : ({ pexParams with iterMax := 0 } : Params).ok = false := by decide
theorem test_bufCap_260_refused : ({ pexParams with bufCap := some 260 } : Params).ok = false := by decide
theorem test_base_edge : ({ pexParams with baseMB := 63495 } : Params).ok = true ∧
    ({ pexParams with baseMB := 63496 } : Params).ok = false := by decide
theorem test_table_row_unknown_refused : ({ pexParams with classTable := [⟨[(0, 0)], .unknown⟩] } : Params).ok = false := by
  decide
theorem test_map_row_invalid_refused : ({ pexParams with groupMap := [⟨.invalid, .mp, 0, 1⟩] } : Params).ok = false := by
  decide
theorem test_map_pair_twice_refused :
    ({ pexParams with groupMap := [⟨.alarm, .mp, 0, 1⟩, ⟨.alarm, .mp, 1, 1⟩] } : Params).ok = false := by decide

theorem test_boot_pex : (boot pexParams).map (fun t => (t.cfg.toParams, t.buf, t.lastTag)) = some (pexParams, [], 31) := by
  decide

/-! ### Decoding: words written bit by bit from the table of R80 -/

theorem test_decode_rx : decode [0b0001000000000011, 0b0000000001101000, 0b0000000000000010, 0b0000000011111111] =
    .instr (.rx [0x68, 0x02, 0xFF]) [] := by decide
theorem test_decode_rx_empty : decode [0b0001000000000000, 0b0100000000000000] = .instr (.rx []) [0x4000] := by decide
theorem test_decode_cls : decode [0b0010000000000001, 0b0000000001100111] = .instr (.cls [0x67]) [] := by decide
theorem test_decode_diff_mp : decode [0b0011000000000001, 0b0000000000000001] = .instr (.diff .mp [0x01]) [] := by decide
theorem test_decode_diff_sb : decode [0b0011000100000010, 0b0000000000000011, 0b0000000010000000] =
    .instr (.diff .sb [0x03, 0x80]) [] := by decide
theorem test_decode_diff_mb : decode [0b0011001000000000] = .instr (.diff .mb []) [] := by decide
theorem test_decode_diff_mbd : decode [0b0011001100000001, 0b0000000000010000] = .instr (.diff .mbd [0x10]) [] := by decide
theorem test_decode_setref : decode [0b0100000000000000] = .instr .setref [] := by decide
theorem test_decode_rds : decode [0b0101000000001011] = .instr (.rds 11) [] := by decide
theorem test_decode_reset : decode [0b1111000000000000] = .instr .reset [] := by decide
theorem test_decode_waits : decode [0x1002, 0x0068] = .wait := by decide
theorem test_decode_diff_reserved_bits : decode [0x3401, 0x0000, 0x5000] = .bad .badOperand 0x3401 [0x5000] := by decide
theorem test_decode_all_ones : decode [0xFFFF] = .bad .badOperand 0xFFFF [] := by decide
theorem test_decode_all_zeros : decode [0x0000] = .bad .illegalOp 0x0000 [] := by decide
theorem test_decode_bad_data : decode [0x1002, 0x0068, 0x0102, 0x4000] = .bad .badData 0x1002 [0x4000] := by decide
theorem test_table_word : decodeTableWord 16 0x5004 = some (.rds 4) ∧ decodeTableWord 16 0x3102 = some (.diff .sb [0, 0]) := by
  decide

/-! ### Every row's word, first after reset -/

theorem test_reset_rx : step (State.reset.withFetchWord 16 0x1000) = exec (.rx []) State.reset := rfl
theorem test_reset_cls : step (State.reset.withFetchWord 16 0x2001) = exec (.cls [0]) State.reset := rfl
theorem test_reset_diff : step (State.reset.withFetchWord 16 0x3301) = exec (.diff .mbd [0]) State.reset := rfl
theorem test_reset_setref : step (State.reset.withFetchWord 16 0x4000) = exec .setref State.reset := rfl
theorem test_reset_rds : step (State.reset.withFetchWord 16 0x500B) = exec (.rds 11) State.reset := rfl
theorem test_reset_reset : step (State.reset.withFetchWord 16 0xF000) = exec .reset State.reset := rfl

/-! ### Functions: 95 sections 2.1, 1.3, 2.4 -/

theorem test_checks_a1 : checkOctet .xor8 [0xA1, 0x05, 0x80] = 0x24 ∧ checkOctet .sum8 [0xA1, 0x05, 0x80] = 0x26 ∧
    checkOctet (.crc8 0x07 0x00 0x00) [0xA1, 0x05, 0x80] = 0xEB := by decide +kernel
theorem test_checks_digits : checkOctet .xor8 [0x31, 0x32, 0x33, 0x34, 0x35, 0x36, 0x37, 0x38, 0x39] = 0x31 ∧
    checkOctet .sum8 [0x31, 0x32, 0x33, 0x34, 0x35, 0x36, 0x37, 0x38, 0x39] = 0xDD ∧
    checkOctet (.crc8 0x07 0x00 0x00) [0x31, 0x32, 0x33, 0x34, 0x35, 0x36, 0x37, 0x38, 0x39] = 0xF4 := by decide +kernel
theorem test_checks_empty : checkOctet .xor8 [] = 0 ∧ checkOctet .sum8 [] = 0 ∧ checkOctet (.crc8 0x07 0 0) [] = 0 := by decide
/-- R87, R10: a drop count saturates. -/
theorem test_drop_saturates : Event.layout (.drop .runaway 69615) = [0x5300FFFF] := by decide

theorem test_frame_length : frameLength 0 = 6 ∧ frameLength 0x5E = 100 ∧ frameLength 0xFF = 261 := by decide
theorem test_rev8 : rev8 0x01 = 0x80 ∧ rev8 0x05 = 0xA0 ∧ rev8 0x81 = 0x81 := by decide
theorem test_bit_order : (snapshot [0x00, 0x20]).idxOf true = 13 := by decide
theorem test_hex_text : hexText [0x68, 0x0A, 0xFF] = ['6', '8', '0', 'A', 'F', 'F'] := by decide

/-! ### One step each, on 95's vectors -/

/-- P2 op 1: the Telegram, then the first pass of `MP` over `05 80`. -/
theorem test_rx_delivers : look (exec (.rx [0x68, 3, 3, 0x68, 0xA1, 0x05, 0x80, 0x24, 0x16]) (start pex))
    (fun t => (t.eventWords, t.lastTag, t.buf)) = some (
      [ 0x11040009, 0x20000068, 0x20000103, 0x20000203, 0x20000368, 0x200004A1, 0x20000505, 0x20000680, 0x20000724,
        0x20000816 ] ++
      [ 0x30010064, 0x30000065, 0x30010066, 0x30000067, 0x30000068, 0x30000069, 0x3000006A, 0x3000006B, 0x3000006C,
        0x3000006D, 0x3000006E, 0x3000006F, 0x30000070, 0x30000071, 0x30000072, 0x30010073 ], 2, []) := by decide

/-- 2.2 (k): a bad frame takes the good one behind it. -/
theorem test_rx_drops_all : look (exec (.rx [0x68, 2, 2, 0x68, 0x40, 2, 0x43, 0x16, 0x68, 1, 1, 0x68, 0xC3, 0xC3, 0x16])
    (start pex)) (fun t => (t.eventWords, t.lastDrop, t.buf)) = some ([0x5200000F], 2, []) := by decide

/-- 2.3: `SendNorm`, row 3. -/
theorem test_cls_sendNorm : look (exec (.cls [0x68, 1, 1, 0x68, 0xC3, 0xC3, 0x16]) (start pex)) State.eventWords =
    some [0x60100000] := by decide

/-- 2.3: one octet too many. -/
theorem test_cls_too_long : look (exec (.cls [0x68, 2, 2, 0x68, 0x40, 2, 0x42, 0x16, 0]) (start pex)) State.eventWords =
    some [0x6C200000] := by decide

/-- 2.4 (c): bit 7 of octet 0 is index 7. -/
theorem test_diff_one_bit : look (exec (.diff .mb [0x81]) { start pex with prevMB := snapshot [0x01] })
    (fun t => (t.eventWords, t.prevMB.length)) = some ([0x38010007], 8) := by decide

/-- 2.4 (h): one bit differs, the whole record is emitted. -/
theorem test_diff_sb_record : look (exec (.diff .sb [0x03, 0x80]) { start pex with prevSB := snapshot [0x03, 0x00] })
    (fun t => (t.eventWords, t.prevSB.length)) = some ([0x40800002], 16) := by decide

/-- 2.4 (i): `STATUS` bit 0 after `SETREF`. -/
theorem test_setref_status : look (exec .setref (start pex)) (fun t => (statusWord t, t.events)) = some (1, []) := by decide

/-- 2.5: `STATUS` with a candidate in the buffer. -/
theorem test_rds_status : look (exec (.rds 1) (holding [0x68, 2, 2, 0x68])) State.eventWords = some [0x71000006] := by decide

/-- 2.5: a reserved register. -/
theorem test_rds_reserved : look (exec (.rds 7) (start pex)) (fun t => (t.eventWords, t.lastErr)) = some ([0x83005007], 3) := by
  decide

/-- P4 op 4: the reset state, and the records stay. -/
theorem test_reset_clears : look (exec .reset { holding [0x68, 5, 6, 0x77] with lastDrop := 1, events := [.drop .lenMismatch 4] })
    (fun t => (t.buf, t.iter, t.lastDrop, t.lastTag, t.eventWords)) = some ([], 0, 0, 31, [0x51000004]) := by decide

/-- 2.5: a bad data word, both data words consumed. -/
theorem test_bad_data_step : look (step (given [0x1002, 0x0068, 0x0102, 0x4000]))
    (fun t => (t.eventWords, t.lastErr, t.buf, t.iter, t.input)) = some ([0x82001002], 2, [], 0, [0x4000]) := by decide

/-! ### The assembler (R88, R89) -/

theorem test_assemble_diff : assembleText pexParams "DIFF MP, 01 80".toList = some [.diff .mp [0x01, 0x80]] := by decide
theorem test_assemble_rds : assembleText pexParams "RDS PLEN_MBD".toList = some [.rds 11] := by decide
theorem test_assemble_idle : assembleText pexParams "IDLE 2".toList = some [.rx [], .rx []] := by decide
theorem test_assemble_frame : frameOf pexParams [0x40, 0x02] = some [0x68, 2, 2, 0x68, 0x40, 2, 0x42, 0x00] := by decide

/-! ### Witnesses: concrete states and operands that meet the hypotheses of each statement -/

theorem witness_EncodedOperationsDecodeBack : (Instr.diff .mbd [0xFF]).wf = true ∧ (Instr.rx []).wf = true := by decide

theorem witness_DecodedWordsAreTheEncoding : decode [0x3301, 0x00FF, 0x4000] = .instr (.diff .mbd [0xFF]) [0x4000] := by decide

theorem witness_TableRowsAreDisjoint : (⟨.rds, 0x5000, 0xFFF0⟩ : OpRow) ∈ opTable ∧
    OpRow.selects ⟨.rds, 0x5000, 0xFFF0⟩ 0x500F = true := by decide

theorem witness_EventLayoutDeterminesTheRecord : FitsLayout (.drop .overflow 65535) ∧
    FitsLayout (.tg .unknown .set .none [0x68, 0, 0, 0x68, 0, 0x16]) ∧
    Event.layout (.drop .overflow 65535) = Event.layout (.drop .overflow 65535) := by
  simp [FitsLayout]

theorem witness_HexTextDeterminesTheOctets : hexText [0xAB] = hexText [0xAB] ∧ hexText [0x0A] ≠ hexText [0xA0] := by decide

theorem witness_StepExecutesTheDecodedOperation : decode (given [0x5001, 0x4000]).input = .instr (.rds 1) [0x4000] := by decide

theorem witness_FirstWordTellsTheLength :
    (given []).input = [] ∧
    ((given [0x1FFF]).input = 0x1FFF :: [] ∧ ([] : List Word).length < dataWords 0x1FFF) ∧
    ((given [0x3401, 0x0000]).input = 0x3401 :: ([0x0000] ++ []) ∧ [(0x0000 : Word)].length = dataWords 0x3401 ∧
      ∃ t, step (given [0x3401, 0x0000]) = .next t) := by
  refine ⟨rfl, ⟨rfl, by decide⟩, rfl, by decide, _, rfl⟩

theorem witness_refused_illegalOp : RefusedWith 0x0000 [] .illegalOp ∧ RefusedWith 0xEFFF [] .illegalOp ∧
    ([] : List Word).length = dataWords 0xEFFF := by
  simp only [RefusedWith]
  decide

theorem witness_refused_badOperand : RefusedWith 0x3400 [] .badOperand ∧ RefusedWith 0x4001 [] .badOperand ∧
    RefusedWith 0xFFFF [] .badOperand ∧ RefusedWith 0x5010 [] .badOperand ∧ RefusedWith 0x5007 [] .badOperand ∧
    RefusedWith 0x500F [] .badOperand ∧ ([] : List Word).length = dataWords 0x500F := by
  simp only [RefusedWith]
  refine ⟨?_, ?_, ?_, ?_, ?_, ?_, ?_⟩ <;> decide

theorem witness_refused_badData : RefusedWith 0x1001 [0x0100] .badData ∧ RefusedWith 0x2001 [0xFF00] .badData ∧
    RefusedWith 0x3301 [0x0100] .badData ∧ [(0x0100 : Word)].length = dataWords 0x3301 :=
  ⟨⟨by decide, _, List.mem_singleton.mpr rfl, by decide⟩, ⟨by decide, _, List.mem_singleton.mpr rfl, by decide⟩,
    ⟨by decide, _, List.mem_singleton.mpr rfl, by decide⟩, by decide⟩

theorem witness_EveryStepAnswers : ∃ t, exec (.rx [0x68, 5, 6, 0x68]) (start pex) = .next t ∧
    newRecords (start pex) t = [.drop .lenMismatch 4] := ⟨_, rfl, by decide⟩

/-- A word alone in the stream that waits for one data word. -/
theorem witness_EveryStepAnswers_waits : (given [0x3301]).input = 0x3301 :: [] ∧ decode (given [0x3301]).input = .wait ∧
    0 < dataWords 0x3301 := by decide

theorem witness_LaterWordsDoNotMatter : decode (given [0x4000]).input ≠ .wait ∧ ∃ t, step (given [0x4000]) = .next t :=
  ⟨by decide, _, rfl⟩

theorem witness_ParametersNeverChange : (∃ t, exec .reset (start pex) = .next t) ∧ ∃ t, step (given [0xF000]) = .next t :=
  ⟨⟨_, rfl⟩, _, rfl⟩

/-- Used for `EventStreamOnlyGrows`, `OnlyRxEndsAFrame`, `EveryTelegramIsWellFormed`. -/
theorem witness_step_telegram : ∃ t, step (given [0x1006, 0x68, 0, 0, 0x68, 0, 0x16]) = .next t ∧
    newRecords (given [0x1006, 0x68, 0, 0, 0x68, 0, 0x16]) t = [.tg .unknown .set .none [0x68, 0, 0, 0x68, 0, 0x16]] :=
  ⟨_, rfl, by decide⟩

theorem witness_EveryStepKeepsTheInvariant : (given [0x1001, 0x68]).Inv ∧ ∃ t, step (given [0x1001, 0x68]) = .next t := by
  refine ⟨⟨fun cap h => (by cases h), by decide, fun g => (by cases g <;> decide), .inl rfl, .inl rfl, .inl rfl⟩, _, rfl⟩

theorem witness_RxOverflowDiscardsBufferAndChunk : (start pexCap).cfg.bufCap = some 261 ∧
    261 < (start pexCap).buf.length + (List.replicate 262 (0 : Octet)).length := by
  refine ⟨rfl, ?_⟩
  rw [List.length_replicate]
  decide

/-- Every chunk fits an unbounded buffer. -/
theorem fits_unbounded (b c : List Octet) : Fits (holding b) c := fun cap h => (by cases h)

/-- A chunk that fills a finite buffer to the last octet fits. -/
theorem witness_Fits_full : Fits (start pexCap) (List.replicate 261 0) := by
  intro cap h
  have h : 261 = cap := Option.some.inj h
  rw [List.length_replicate, ← h]
  decide

/-- A header not yet there, a candidate one octet short, and four octets that are no header. -/
theorem witness_RxKeepsAnUnfinishedBuffer :
    (Fits (holding [0x68, 2]) [2] ∧ Waits ((holding [0x68, 2]).buf ++ [2])) ∧
    (Fits (holding [0x68, 0, 0, 0x68]) [0] ∧ Waits ((holding [0x68, 0, 0, 0x68]).buf ++ [0])) ∧
    (Fits (holding [0x68, 5, 6]) [0x77] ∧ NotCandidate ((holding [0x68, 5, 6]).buf ++ [0x77])) ∧
    (∀ b, (holding b).iter.toNat + 1 < (holding b).cfg.iterMax) :=
  ⟨⟨fits_unbounded _ _, .inl (by decide)⟩, ⟨fits_unbounded _ _, .inr ⟨by decide, by decide, by decide⟩⟩,
    ⟨fits_unbounded _ _, by decide, by decide⟩, fun _ => (by show (1 : BitVec 16).toNat + 1 < 100; decide)⟩

/-- A parked block with `ITER` one below the bound: with an empty buffer, and with octets in it. -/
theorem witness_RxAntiRunawayDiscards :
    (Fits { start pex3 with iter := 2 } [] ∧ Waits (({ start pex3 with iter := 2 } : State).buf ++ []) ∧
      ({ start pex3 with iter := 2 } : State).cfg.iterMax ≤ ({ start pex3 with iter := 2 } : State).iter.toNat + 1) ∧
    (Fits { start pex3 with iter := 2, buf := [0, 0x68] } [0x68, 1] ∧
      NotCandidate (({ start pex3 with iter := 2, buf := [0, 0x68] } : State).buf ++ [0x68, 1])) :=
  ⟨⟨fun cap h => (by cases h), .inl (by decide), by decide⟩, fun cap h => (by cases h), by decide, by decide⟩

theorem witness_RxLengthMismatchDiscards : Fits (holding [0x68, 5]) [6, 0x68] ∧ Candidate ((holding [0x68, 5]).buf ++ [6, 0x68]) ∧
    ¬ LengthsAgree ((holding [0x68, 5]).buf ++ [6, 0x68]) := ⟨fits_unbounded _ _, by decide, by decide⟩

theorem witness_RxCheckFailureDiscards : Fits (holding [0x68, 0, 0, 0x68]) [1, 0x16] ∧
    Complete ((holding [0x68, 0, 0, 0x68]).buf ++ [1, 0x16]) ∧
    validAccepts pex.valid (((holding [0x68, 0, 0, 0x68]).buf ++ [1, 0x16]).take
      (totalLength ((holding [0x68, 0, 0, 0x68]).buf ++ [1, 0x16]))) = false :=
  ⟨fits_unbounded _ _, ⟨by decide, by decide, by decide⟩, by decide⟩

/-- A frame of `SbStatus` under `PEX`, by its tag's row of `CLASS_TABLE` (P3). -/
theorem hasTag_sbStatus : HasTag pexParams [0x68, 2, 2, 0x68, 0xB2, 3, 0xB1, 0x16] .sbStatus := by
  refine .inr (.inl ⟨⟨⟨by decide, by decide, by decide, by decide⟩, by decide⟩, tableEx.take 1, tableEx[1], tableEx.drop 2,
    by decide, ?_, (testsHold_iff _ _).mp (by decide), rfl⟩)
  intro r hr h
  have hr : r = tableEx[0] := by simpa [tableEx] using hr
  subst hr
  have := (testsHold_iff _ _).mpr h
  revert this
  decide

theorem witness_RxEmitsAndDelivers : Fits (holding [0x68, 2, 2, 0x68, 0xB2]) [3, 0xB1, 0x16, 0x68] ∧
    Complete ((holding [0x68, 2, 2, 0x68, 0xB2]).buf ++ [3, 0xB1, 0x16, 0x68]) ∧
    (holding [0x68, 2, 2, 0x68, 0xB2]).buf ++ [3, 0xB1, 0x16, 0x68] = [0x68, 2, 2, 0x68, 0xB2, 3, 0xB1, 0x16] ++ [0x68] ∧
    [(0x68 : Octet), 2, 2, 0x68, 0xB2, 3, 0xB1, 0x16].length =
      totalLength ((holding [0x68, 2, 2, 0x68, 0xB2]).buf ++ [3, 0xB1, 0x16, 0x68]) ∧
    validAccepts pex.valid [0x68, 2, 2, 0x68, 0xB2, 3, 0xB1, 0x16] = true ∧
    HasTag (holding [0x68, 2, 2, 0x68, 0xB2]).cfg.toParams [0x68, 2, 2, 0x68, 0xB2, 3, 0xB1, 0x16] .sbStatus :=
  ⟨fits_unbounded _ _, ⟨by decide, by decide, by decide⟩, by decide, by decide, by decide, hasTag_sbStatus⟩

/-- The three ways an `RX` can end, for `RxFrame` and `RxBufferOctetByOctet`. -/
theorem witness_RxFrame :
    (∃ t, exec (.rx [0x68, 2, 2, 0x68, 0xB2, 3, 0xB1, 0x16, 0x68]) (start pex) = .next t ∧
      .tg .sbStatus .set .diff [0x68, 2, 2, 0x68, 0xB2, 3, 0xB1, 0x16] ∈ newRecords (start pex) t ∧ t.buf = [0x68]) ∧
    (∃ t, exec (.rx [0x68, 5, 6, 0x68]) (start pex) = .next t ∧ .drop .lenMismatch 4 ∈ newRecords (start pex) t) ∧
    (∃ t, exec (.rx [0x68]) (start pex) = .next t ∧ newRecords (start pex) t = []) :=
  ⟨⟨_, rfl, by decide, by decide⟩, ⟨_, rfl, by decide⟩, _, rfl, by decide⟩

theorem witness_NoTelegramBehindAStrayOctet : (holding [0x00]).buf.head? = some 0x00 ∧ (0x00 : Octet) ≠ 0x68 ∧
    ∃ t, exec (.rx [0x68, 1, 1, 0x68, 0xC3, 0xC3, 0x16]) (holding [0x00]) = .next t := ⟨rfl, by decide, _, rfl⟩

/-- P1's frame in three chunks: the iteration bound met exactly, with `ITER_MAX = 3`. -/
theorem witness_ChunkingDoesNotAffectTheTelegram : WellFormedFrame pex3.valid [0x68, 2, 2, 0x68, 0x40, 2, 0x42, 0x16] ∧
    ([[0x68, 2], [2, 0x68, 0x40]] ++ [[2, 0x42, 0x16]] : List (List Octet)).flatten = [0x68, 2, 2, 0x68, 0x40, 2, 0x42, 0x16] ∧
    (start pex3).iter.toNat + (([[0x68, 2], [2, 0x68, 0x40]] : List (List Octet)).length + 1) ≤ (start pex3).cfg.iterMax ∧
    ([2, 0x42, 0x16] : List Octet) ≠ [] ∧ (start pex3).buf = [] :=
  ⟨⟨⟨by decide, by decide, by decide, by decide⟩, by decide⟩, by decide, by decide, by decide, rfl⟩

theorem witness_CorruptedCheckIsDroppedOnce : FrameShape [0x68, 0, 0, 0x68, 1, 0x16] ∧
    validAccepts pex3.valid [0x68, 0, 0, 0x68, 1, 0x16] = false ∧
    ([[0x68, 0, 0]] ++ [[0x68, 1, 0x16]] : List (List Octet)).flatten = [0x68, 0, 0, 0x68, 1, 0x16] ∧
    ([0x68, 1, 0x16] : List Octet) ≠ [] ∧ (start pex3).buf = [] ∧
    (start pex3).iter.toNat + (([[0x68, 0, 0]] : List (List Octet)).length + 1) ≤ (start pex3).cfg.iterMax :=
  ⟨⟨by decide, by decide, by decide, by decide⟩, by decide, by decide, by decide, rfl, by decide⟩

theorem witness_ClsReportsTheOneTag : (start pex).cfg.valid = pexParams.valid ∧ (start pex).cfg.classTable = pexParams.classTable :=
  ⟨rfl, rfl⟩

theorem witness_CheckOctetIsUnique : [(0x68 : Octet), 2, 2, 0x68].length = 4 ∧
    validAccepts (.ck .xor8 (some 0x16)) ([0x68, 2, 2, 0x68] ++ [0x40, 2] ++ [0x42, 0x16]) = true := by decide

theorem witness_FrameTextBuildsAWellFormedFrame : frameOf pexParams [] = some [0x68, 0, 0, 0x68, 0, 0] ∧
    pexParams.valid = .ck .xor8 none ∧ ({ pexParams with valid := .ck .sum8 (some 0) } : Params).valid = .ck .sum8 (some 0) ∧
    (some 0 : Option Octet) = some pexParams.endOctet ∧ (List.replicate 255 (0x68 : Octet)).length ≤ 255 :=
  ⟨by decide, rfl, rfl, rfl, by rw [List.length_replicate]⟩

theorem witness_DiffBitsEmitsTheChanges : Group.mbd ≠ Group.sb ∧
    (List.range (8 * [(0x81 : Octet)].length)).filter (fun i =>
      ({ start pex with prevMBD := [true, false, false, false, false, false, false, false] } : State).refresh ||
      8 * [(0x81 : Octet)].length !=
        (State.prev { start pex with prevMBD := [true, false, false, false, false, false, false, false] } .mbd).length ||
      bitOf [0x81] i != (State.prev
        { start pex with prevMBD := [true, false, false, false, false, false, false, false] } .mbd).getD i false) = [7] := by
  decide

theorem witness_DiffSbEmitsWholeRecords :
    State.prev { start pex with prevSB := bitsOf [0x03, 0x00] } .sb = bitsOf [0x03, 0x00] ∧
    (List.range [(0x03 : Octet), 0x80].length).filter (fun k => ([(0x03 : Octet), 0x80].length != [(0x03 : Octet), 0x00].length ||
      [(0x03 : Octet), 0x80].getD k 0 != [(0x03 : Octet), 0x00].getD k 0)) = [1] := by decide

theorem witness_LengthChangeIsAFullRefresh : 8 * ([] : List Octet).length ≠ (State.prev { start pex with prevMB := bitsOf [0x81] } .mb).length ∧
    8 * [(0x01 : Octet)].length ≠ ((start pex).prev .sb).length ∧ ∃ t, exec (.diff .sb [0x01]) (start pex) = .next t :=
  ⟨by decide, by decide, _, rfl⟩

theorem witness_EqualSnapshotsEmitNothing : (start pex).refresh = false ∧
    State.prev { start pex with prevMB := bitsOf [0x01] } .mb = bitsOf [0x01] ∧ ∃ t, exec (.diff .mb [0x01]) (start pex) = .next t :=
  ⟨rfl, rfl, _, rfl⟩

theorem witness_OneChangedBitGivesOneEvent : State.prev { start pex with prevMP := bitsOf [0x01] } .mp = bitsOf [0x01] ∧
    ({ start pex with prevMP := bitsOf [0x01] } : State).refresh = false ∧ [(0x01 : Octet)].length = [(0x81 : Octet)].length ∧
    ∀ i, i < 8 * [(0x81 : Octet)].length → (bitOf [0x81] i ≠ bitOf [0x01] i ↔ i = 8 * 0 + 7) :=
  ⟨rfl, rfl, rfl, by decide⟩

theorem witness_EventAddressesStayInTheirRange : ∃ t, step (given [0x3101, 0x0001]) = .next t ∧
    newRecords (given [0x3101, 0x0001]) t = [.sbe 1 0x01] := ⟨_, rfl, by decide⟩

/-- `PEX` is legal, and a set one past a bound, or with a table row the rules forbid, is not. -/
theorem witness_BootRefusesIllegalParameters : LegalParams pexParams ∧
    ¬ LegalParams { pexParams with iterMax := 65536 } ∧ ¬ LegalParams { pexParams with baseMB := 63496 } ∧
    ¬ LegalParams { pexParams with groupMap := [⟨.alarm, .mp, 0, 1⟩, ⟨.alarm, .mp, 1, 1⟩] } := by
  refine ⟨⟨by decide, by decide, fun cap h => (by cases h), by decide, by decide, by decide, by decide, by decide, by decide,
    ?_⟩, fun h => absurd h.2.1 (by decide), fun h => absurd h.2.2.2.2.2.1 (by decide), fun h => ?_⟩
  · intro j k q r hj hk ht _
    match j, k with
    | 0, 0 => rfl
    | 1, 1 => rfl
    | 0, 1 => cases hj; cases hk; cases ht
    | 1, 0 => cases hj; cases hk; cases ht
    | _ + 2, _ => cases hj
    | _, _ + 2 => cases hk
  · exact absurd (h.2.2.2.2.2.2.2.2.2 0 1 _ _ rfl rfl rfl rfl) (by decide)

theorem witness_SetrefOnlySetsRefresh : ({ start pex with refresh := true } : State).refresh = true := rfl

/-- `RESET`, an `SbStatus` Telegram and `SETREF`, each on the flag it moves. -/
theorem witness_RefreshFallsOnlyBySbStatusOrReset :
    (∃ t, step { given [0xF000] with refresh := true } = .next t ∧ t.refresh = false) ∧
    (∃ t, step { given [0x1008, 0x68, 2, 2, 0x68, 0xB2, 3, 0xB1, 0x16] with refresh := true } = .next t ∧ t.refresh = false ∧
      .tg .sbStatus .set .diff [0x68, 2, 2, 0x68, 0xB2, 3, 0xB1, 0x16] ∈
        newRecords { given [0x1008, 0x68, 2, 2, 0x68, 0xB2, 3, 0xB1, 0x16] with refresh := true } t) ∧
    (∃ t, step (given [0x4000]) = .next t ∧ (given [0x4000]).refresh = false ∧ t.refresh = true) :=
  ⟨⟨_, rfl, rfl⟩, ⟨_, rfl, by decide, by decide⟩, _, rfl, rfl, rfl⟩

theorem witness_FrameOfTheOperationsThatStoreNothing : (∀ c, Instr.rds 7 ≠ .rx c) ∧ Instr.rds 7 ≠ .reset ∧
    ∃ t, exec (.rds 7) (start pex) = .next t := ⟨fun c h => (by cases h), by decide, _, rfl⟩

/-- Every register number of R29, at a state with a candidate in the buffer and a snapshot of 2040 bits for the lengths. -/
theorem witness_RdsReportsTheRegister : RegValue (holding [0x68, 2, 2, 0x68]) 0 0 ∧ RegValue (holding [0x68, 2, 2, 0x68]) 1 6 ∧
    RegValue (holding [0x68, 2, 2, 0x68]) 2 4 ∧ RegValue (holding [0x68, 2, 2, 0x68]) 3 1 ∧
    RegValue (holding [0x68, 2, 2, 0x68]) 4 31 ∧ RegValue (holding [0x68, 2, 2, 0x68]) 5 0 ∧
    RegValue (holding [0x68, 2, 2, 0x68]) 6 0 ∧ RegValue (holding [0x68, 2, 2, 0x68]) 8 0 ∧
    RegValue { start pex with prevSB := List.replicate 2040 true } 9 2040 ∧
    RegValue (holding [0x68, 2, 2, 0x68]) 10 0 ∧ RegValue (holding [0x68, 2, 2, 0x68]) 11 0 ∧
    (∀ g, ((start pex).prev g).length ≤ 2040) := by
  refine ⟨?_, ?_, ?_, ?_, ?_, ?_, ?_, ?_, ?_, ?_, ?_, fun g => by cases g <;> decide⟩ <;> simp only [RegValue]
  case refine_9 =>
    refine .inr (.inr (.inr (.inr (.inr (.inr (.inr (.inr (.inl ⟨trivial, ?_⟩))))))))
    show (2040 : Word).toNat = (List.replicate 2040 true).length
    rw [List.length_replicate]
    decide
  all_goals decide

theorem witness_RdsOfAReservedRegisterIsRefused : (7 : BitVec 4) ∉ legalRegs ∧ (12 : BitVec 4) ∉ legalRegs ∧
    (15 : BitVec 4) ∉ legalRegs := by decide

end Sys2Proof.Tests
end

/-! PROOFS of the family 00_scope: the bit layout of a record determines the record (O5), a step executes the operation
it decodes (O7), a block is brought up from legal parameters only (O48). -/

namespace Sys2Proof

/-! ## The codes of R76, R77, R78, R190 and R196 tell their names apart -/

theorem Tag.code_injective : Function.Injective Tag.code :=
  Function.LeftInverse.injective (g := fun c => Tag.ofNat c.toNat) fun t => by cases t <;> rfl

theorem Hint.code_injective : Function.Injective Hint.code :=
  Function.LeftInverse.injective (g := fun c => Hint.ofNat c.toNat) fun h => by cases h <;> rfl

theorem Dest.code_injective : Function.Injective Dest.code :=
  Function.LeftInverse.injective (g := fun c => Dest.ofNat c.toNat) fun d => by cases d <;> rfl

theorem Group.code_injective : Function.Injective Group.code :=
  Function.LeftInverse.injective ofCode_code

/-- The codes start at 1, since 0 is "none" in `LASTDROP` (R190). -/
theorem DropReason.code_injective : Function.Injective DropReason.code :=
  Function.LeftInverse.injective (g := fun c => DropReason.ofNat (c.toNat - 1)) fun r => by cases r <;> rfl

/-- The codes start at 1, since 0 is "none" in `LASTERR` (R196). -/
theorem ErrCode.code_injective : Function.Injective ErrCode.code :=
  Function.LeftInverse.injective (g := fun c => ErrCode.ofNat (c.toNat - 1)) fun c => by cases c <;> rfl

/-! ## The bit layout of the records -/

/-- Two fields side by side determine each field. -/
theorem append_inj {m n : Nat} {a a' : BitVec m} {b b' : BitVec n} : a ++ b = a' ++ b' ↔ a = a' ∧ b = b' := by
  constructor
  · intro h
    have hl := congrArg (BitVec.extractLsb' n m) h
    have hr := congrArg (BitVec.extractLsb' 0 n) h
    rw [BitVec.extractLsb'_append_eq_left, BitVec.extractLsb'_append_eq_left] at hl
    rw [BitVec.extractLsb'_append_eq_right, BitVec.extractLsb'_append_eq_right] at hr
    exact ⟨hl, hr⟩
  · rintro ⟨rfl, rfl⟩
    rfl

/-- A field between two fixed ones is determined. -/
theorem middle_inj {m n k : Nat} {x : BitVec m} {a b : BitVec n} {z : BitVec k}
    (h : x ++ a ++ z = x ++ b ++ z) : a = b :=
  (append_inj.mp (append_inj.mp h).1).2

/-- Tag, hint and destination behind a kind, as `TG` and `CLSR` have them, are determined (R87). -/
theorem tagFields_inj {x : BitVec 4} {t t' : Tag} {i i' : Hint} {s s' : Dest}
    (h : x ++ t.code ++ i.code ++ s.code = x ++ t'.code ++ i'.code ++ s'.code) : t = t' ∧ i = i' ∧ s = s' := by
  obtain ⟨h, hs⟩ := append_inj.mp h
  obtain ⟨h, hi⟩ := append_inj.mp h
  obtain ⟨-, ht⟩ := append_inj.mp h
  exact ⟨Tag.code_injective ht, Hint.code_injective hi, Dest.code_injective hs⟩

end Sys2Proof

namespace Sys2Proof.Machine

open Sys2Proof.Spec

/-- The data words of a `TG` record carry its octets, in order (R87). -/
theorem telegramData_injective {a b : List Octet} (i : Nat) (h : telegramData i a = telegramData i b) : a = b := by
  induction a generalizing i b with
  | nil =>
    cases b with
    | nil => rfl
    | cons o os => cases h
  | cons o os ih =>
    cases b with
    | nil => cases h
    | cons o' os' =>
      obtain ⟨hw, hws⟩ := List.cons.inj h
      rw [(append_inj.mp hw).2, ih (i + 1) hws]

/-- The kind of a record, bits 31 to 28 of its first word (R87). -/
def Event.kind : Event → Nat
  | .tg _ _ _ _ => 1
  | .ae _ _ _ => 3
  | .sbe _ _ => 4
  | .drop _ _ => 5
  | .clsr _ _ _ => 6
  | .csrv _ _ => 7
  | .err _ _ => 8

/-- The first word of a record carries its kind (R87). -/
theorem layout_kind (e : Event) : (e.layout.head?.map fun w => w.toNat / 2 ^ 28) = some e.kind := by
  cases e <;>
    simp only [Event.layout, Event.kind, List.head?_cons, Option.map_some, Option.some.injEq, append_toNat,
      BitVec.toNat_ofNat, BitVec.ofNat_eq_ofNat, Config.addrW] <;>
    omega

/-- Records with the same words have the same kind (R87). -/
theorem kind_eq_of_layout_eq {d e : Event} (h : d.layout = e.layout) : d.kind = e.kind :=
  Option.some.inj (by rw [← layout_kind d, ← layout_kind e, h])

/-- A record that fits the layout is read back from its words, kind by kind (R87). -/
theorem eq_of_layout_eq {d e : Event} (hd : FitsLayout d) (he : FitsLayout e) (h : d.layout = e.layout) : d = e := by
  have hk := kind_eq_of_layout_eq h
  match d, e, hk with
  | .tg t i s raw, .tg t' i' s' raw', _ =>
    obtain ⟨hw, hraw⟩ := List.cons.inj h
    obtain ⟨hw, -⟩ := append_inj.mp hw
    obtain ⟨rfl, rfl, rfl⟩ := tagFields_inj (append_inj.mp hw).1
    rw [telegramData_injective 0 hraw]
  | .ae g a v, .ae g' a' v', _ =>
    obtain ⟨hw, rfl⟩ := append_inj.mp (List.cons.inj h).1
    obtain ⟨hw, hv⟩ := append_inj.mp hw
    rw [Group.code_injective (middle_inj hw), BitVec.ofBool_eq_iff_eq.mp hv]
  | .sbe a b, .sbe a' b', _ =>
    obtain ⟨hw, rfl⟩ := append_inj.mp (List.cons.inj h).1
    rw [(append_inj.mp hw).2]
  | .drop r n, .drop r' n', _ =>
    obtain ⟨hw, hn⟩ := append_inj.mp (List.cons.inj h).1
    have hn := congrArg BitVec.toNat hn
    simp only [FitsLayout, BitVec.toNat_ofNat] at hd he hn
    rw [DropReason.code_injective (middle_inj hw), show n = n' by omega]
  | .clsr t i s, .clsr t' i' s', _ =>
    obtain ⟨rfl, rfl, rfl⟩ := tagFields_inj (append_inj.mp (List.cons.inj h).1).1
    rfl
  | .csrv r v, .csrv r' v', _ =>
    obtain ⟨hw, rfl⟩ := append_inj.mp (List.cons.inj h).1
    rw [middle_inj hw]
  | .err c w, .err c' w', _ =>
    obtain ⟨hw, rfl⟩ := append_inj.mp (List.cons.inj h).1
    rw [ErrCode.code_injective (middle_inj hw)]

/-- The word of a `DROP` record as a number: its count saturates (R10, R87). -/
theorem layout_drop_toNat (reason : DropReason) (n : Nat) : ∃ w, Event.layout (.drop reason n) = [w] ∧
    w.toNat = 5 * 2 ^ 28 + reason.code.toNat * 2 ^ 24 + min n 65535 := by
  refine ⟨_, rfl, ?_⟩
  simp only [append_toNat, BitVec.toNat_ofNat, BitVec.ofNat_eq_ofNat]
  omega

/-- Settles O5: the words give back the fields of a record, and the count of a `DROP` record saturates. -/
theorem eventLayoutDeterminesTheRecord : Obligations.EventLayoutDeterminesTheRecord :=
  ⟨fun _ _ hd he h => eq_of_layout_eq hd he h, layout_drop_toNat⟩

/-! ## The step -/

/-- A step on a stream that holds an operation is that operation's meaning (R6, R80). -/
theorem step_of_decode_instr {s : State} {i : Instr} {rest : List Word} (h : decode s.input = .instr i rest) :
    step s = exec i { s with input := rest } := by
  unfold step
  rw [h]

/-- Settles O7, by the step's arm for a decoded operation. -/
theorem stepExecutesTheDecodedOperation : Obligations.StepExecutesTheDecodedOperation :=
  fun _ _ _ h => step_of_decode_instr h

/-! ## Bringing a block up -/

/-- The reset state meets the invariant, whatever the parameters are (R34, R35). -/
theorem reset_withCfg_inv (c : Configuration) : ({ State.reset with cfg := c } : State).Inv where
  capacity := fun _ _ => Nat.zero_le _
  iterBelowMax := c.iterMax_range.1
  snapshotLengths := fun g => by cases g <;> exact ⟨rfl, Nat.zero_le _⟩
  lastTagLegal := .inl rfl
  lastDropLegal := .inl rfl
  lastErrLegal := .inl rfl

end Sys2Proof.Machine

namespace Sys2Proof

open Machine Spec

/-- The tags a table row may have are all but two (R5, R133, R140). -/
theorem Tag.mayBeInTable_iff (t : Tag) : t.mayBeInTable = true ↔ t ≠ .unknown ∧ t ≠ .invalid := by
  cases t <;> decide

/-- The shape of a `CLASS_TABLE` row, condition by condition (R133). -/
theorem ClassRow.ok_iff (r : ClassRow) :
    r.ok = true ↔ 1 ≤ r.tests.length ∧ r.tests.length ≤ 261 ∧ r.tag ≠ .unknown ∧ r.tag ≠ .invalid := by
  simp only [ClassRow.ok, Bool.and_eq_true, decide_eq_true_eq, Tag.mayBeInTable_iff, and_assoc]

/-- The least finite `BUF_CAP` (R5). -/
theorem Params.capOk_iff (p : Params) : p.capOk = true ↔ ∀ cap, p.bufCap = some cap → 261 ≤ cap := by
  unfold Params.capOk
  cases p.bufCap <;> simp

/-- The images of a list under `f` do not repeat iff equal images stand at equal indices. -/
theorem nodup_map_iff {α β : Type} (f : α → β) (l : List α) :
    (l.map f).Nodup ↔ ∀ (j k : Nat) (q r : α), l[j]? = some q → l[k]? = some r → f q = f r → j = k := by
  constructor
  · intro h j k q r hj hk hf
    obtain ⟨hlt, -⟩ := List.getElem?_eq_some_iff.mp hj
    refine (List.getElem?_inj (by simpa using hlt) h).mp ?_
    rw [List.getElem?_map, List.getElem?_map, hj, hk, Option.map_some, Option.map_some, hf]
  · intro h
    rw [List.nodup_iff_injective_getElem]
    intro j k hjk
    refine Fin.ext (h j k l[j] l[k] ?_ ?_ (by simpa using hjk)) <;> simp

/-- The check of a parameter set is the constraints of R5, R133 and R140. -/
theorem Params.ok_iff_legalParams (p : Params) : p.ok = true ↔ LegalParams p := by
  simp only [Params.ok, LegalParams, Bool.and_eq_true, decide_eq_true_eq, Params.capOk_iff, List.all_eq_true,
    ClassRow.ok_iff, Tag.mayBeInTable_iff, nodup_map_iff, Prod.mk.injEq, and_imp, and_assoc]
  rfl

/-- Settles O48, by the two answers `boot` can give. -/
theorem bootRefusesIllegalParameters : Obligations.BootRefusesIllegalParameters := by
  intro p
  rw [← p.ok_iff_legalParams]
  rcases boot_cases p with ⟨hok, hboot⟩ | ⟨hok, hboot⟩
  · exact ⟨fun h => absurd hok h, fun _ => ⟨_, hboot, rfl, rfl, reset_withCfg_inv _⟩⟩
  · exact ⟨fun _ => hboot, fun h => absurd h (by simp [hok])⟩

end Sys2Proof

/-! PROOFS of the family 10_state: every step keeps the invariant (O15) and the reset state meets it (O16), at the
values of R34 (O47); a step only appends records (O13); the frame of `RX` (O23) and of `REFRESH` (O42); what `RDS`
reports (O44); the hex-text (O6). -/

namespace Sys2Proof

/-! ## What the decoder reads is well formed -/

/-- No command word announces more data words than `RX` and `CLS` can (R80, R81). -/
theorem dataCount_le (w : Word) : dataCount w ≤ 4095 := by
  unfold dataCount
  split
  · have := (argField w).isLt; omega
  · split
    · have := (diffCountField w).isLt; omega
    · omega

/-- A word of the row `DIFF` announces at most 255 data words (R80, R81). -/
theorem dataCount_le_of_selectRow_diff {w : Word} (h : selectRow w = some .diff) : dataCount w ≤ 255 := by
  have hop : w.toNat / 4096 = 3 := by
    rw [selectRow_eq] at h
    split_ifs at h <;> simp at h
    omega
  have hne : ¬ (opField w = 1 ∨ opField w = 2) := by
    rw [opField_eq_iff, opField_eq_iff, hop]; decide
  rw [dataCount, if_neg hne, if_pos ((opField_eq_iff w 3).mpr hop)]
  have := (diffCountField w).isLt
  omega

/-- Data words carry one octet each (R79). -/
theorem length_of_dataOctets {ws : List Word} {os : List Octet} (h : dataOctets ws = some os) :
    os.length = ws.length := by
  rw [dataOctets_eq_some h, List.length_map]

/-- An operation assembled from as many data words as its command word announces is well formed (R80, R81). -/
theorem assemble_wf {m : Mnemonic} {w : Word} {data : List Word} {i : Instr} (hm : selectRow w = some m)
    (hl : data.length = dataCount w) (h : assemble m w data = some i) : i.wf = true := by
  have hw := dataCount_le w
  cases m with
  | rx =>
    obtain ⟨c, hc, rfl⟩ := Option.map_eq_some_iff.mp h
    simpa [Instr.wf, length_of_dataOctets hc, hl] using hw
  | cls =>
    obtain ⟨x, hx, rfl⟩ := Option.map_eq_some_iff.mp h
    simpa [Instr.wf, length_of_dataOctets hx, hl] using hw
  | diff =>
    obtain ⟨n, hn, rfl⟩ := Option.map_eq_some_iff.mp h
    simpa [Instr.wf, length_of_dataOctets hn, hl] using dataCount_le_of_selectRow_diff hm
  | setref => cases h; rfl
  | rds => cases h; rfl
  | reset => cases h; rfl

/-- Every operation the decoder reads is well formed (R80, R85). -/
theorem wf_of_decode {ws rest : List Word} {i : Instr} (h : decode ws = .instr i rest) : i.wf = true := by
  rcases decode_cases ws with ⟨-, hd⟩ | ⟨_, _, -, -, hd⟩ | ⟨w, data, rest', rfl, hl, -⟩
  · cases hd.symm.trans h
  · cases hd.symm.trans h
  · rw [decode_cons hl] at h
    cases hm : selectRow w with
    | none => simp [hm] at h
    | some m =>
      cases ha : assemble m w data with
      | none => simp [hm, ha] at h
      | some j =>
        simp only [hm, ha, Decoded.instr.injEq] at h
        exact h.1 ▸ assemble_wf hm hl ha

end Sys2Proof

namespace Sys2Proof.Machine

open Sys2Proof.Spec

/-! ## The invariant -/

section Invariant

variable {s : State}

/-- The length of a snapshot of at most 255 octets (R24, R153). -/
theorem snapshot_length_legal {n : List Octet} (h : n.length ≤ 255) :
    (snapshot n).length % 8 = 0 ∧ (snapshot n).length ≤ 2040 := by
  rw [snapshot_length]; omega

/-- The command stream is no part of the invariant. -/
theorem State.Inv.withInput (hs : s.Inv) (ws : List Word) : ({ s with input := ws } : State).Inv := { hs with }

/-- `REFRESH` is no part of the invariant. -/
theorem State.Inv.withRefresh (hs : s.Inv) (b : Bool) : ({ s with refresh := b } : State).Inv := { hs with }

theorem State.Inv.emit (hs : s.Inv) (e : Event) : (s.emit e).Inv := { hs with }

theorem State.Inv.clearBuffer (hs : s.Inv) : s.clearBuffer.Inv :=
  { hs with
    capacity := fun _ _ => Nat.zero_le _
    iterBelowMax := s.cfg.iterMax_range.1 }

theorem State.Inv.raiseDrop (hs : s.Inv) (reason : DropReason) (n : Nat) : (raiseDrop reason n s).Inv :=
  { hs with lastDropLegal := .inr ⟨reason, rfl⟩ }

theorem State.Inv.raiseErr (hs : s.Inv) (code : ErrCode) (w : Word) : (raiseErr code w s).Inv :=
  { hs with lastErrLegal := .inr ⟨code, rfl⟩ }

/-- Reset gives the invariant from any state (R180). -/
theorem resetBlock_inv (s : State) : s.resetBlock.Inv := { reset_withCfg_inv s.cfg with }

/-- A pass writes one register, with a snapshot of its octets (R24, R160). -/
theorem State.Inv.diffPass (hs : s.Inv) (g : Group) {n : List Octet} (hn : n.length ≤ 255) :
    (diffPass g n s).Inv where
  capacity := by simpa [State.fitsCapacity] using hs.capacity
  iterBelowMax := by simpa using hs.iterBelowMax
  snapshotLengths h := by
    rw [diffPass_prev]
    split
    · exact snapshot_length_legal hn
    · exact hs.snapshotLengths h
  lastTagLegal := by simpa using hs.lastTagLegal
  lastDropLegal := by simpa using hs.lastDropLegal
  lastErrLegal := by simpa using hs.lastErrLegal

/-- `Deliver` of a frame that is not `Invalid` (R136, R139). -/
theorem State.Inv.deliver (hs : s.Inv) {frame : List Octet} (hf : classify s.cfg.toParams frame ≠ .invalid) :
    (deliver frame s).Inv where
  capacity := by simpa [State.fitsCapacity] using hs.capacity
  iterBelowMax := by simpa using hs.iterBelowMax
  snapshotLengths g := by
    rcases deliver_prev frame s g with h | ⟨n, hn, h⟩
    · exact h ▸ hs.snapshotLengths g
    · exact h ▸ snapshot_length_legal hn
  lastTagLegal := .inr ⟨_, hf, deliver_lastTag frame s⟩
  lastDropLegal := by simpa using hs.lastDropLegal
  lastErrLegal := by simpa using hs.lastErrLegal

/-- A chunk that does not overflow leaves the buffer within its capacity (R101). -/
theorem length_append_le_of_not_overflows {c : List Octet} {cap : Nat} (ho : overflows s c = false)
    (hcap : s.cfg.bufCap = some cap) : (s.buf ++ c).length ≤ cap := by
  rw [overflows, hcap] at ho
  rw [List.length_append]
  exact Nat.not_lt.mp (of_decide_eq_false ho)

/-- A new buffer within capacity and a new count below `ITER_MAX` keep the invariant (R35). -/
theorem State.Inv.withBuffer (hs : s.Inv) {b : List Octet} {k : BitVec 16}
    (hb : ∀ cap, s.cfg.bufCap = some cap → b.length ≤ cap) (hk : k.toNat < s.cfg.iterMax) :
    ({ s with buf := b, iter := k } : State).Inv :=
  { hs with
    capacity := hb
    iterBelowMax := hk }

/-- `RX` keeps the invariant: the count stays below `ITER_MAX`, the buffer within its capacity, and the frame it delivers
is well formed (R35, R101, R111, R136). -/
theorem State.Inv.rx (hs : s.Inv) (c : List Octet) : (rx c s).Inv := by
  rcases rx_cases c s with ⟨r, n, h⟩ | ⟨-, -, h⟩ | ⟨ho, hk, h⟩ | ⟨ho, frame, hd, h⟩ <;> rw [h]
  · exact hs.clearBuffer.raiseDrop r n
  · exact hs.clearBuffer
  · have hmax := s.cfg.iterMax_range.2
    refine hs.withBuffer (fun cap hcap => length_append_le_of_not_overflows ho hcap) ?_
    rwa [BitVec.toNat_ofNat, Nat.mod_eq_of_lt (by omega)]
  · have hbuf : ∀ cap, s.cfg.bufCap = some cap → ((s.buf ++ c).drop frame.length).length ≤ cap := by
      intro cap hcap
      have := length_append_le_of_not_overflows ho hcap
      rw [List.length_drop]
      omega
    exact (hs.withBuffer (k := 0) hbuf s.cfg.iterMax_range.1).deliver (classify_ne_invalid s.cfg (detect_emit hd).1)

/-- A well-formed operation keeps the invariant; the octet count matters for `DIFF` alone (R35, R82). -/
theorem State.Inv.exec (hs : s.Inv) {i : Instr} {t : State} (hi : i.wf = true) (h : exec i s = .next t) : t.Inv := by
  cases i with
  | rx c => rw [← next_inj h]; exact hs.rx c
  | cls x => rw [← next_inj h]; exact hs.emit _
  | diff g n => rw [← next_inj h]; exact hs.diffPass g (by simpa [Instr.wf] using hi)
  | setref => rw [← next_inj h]; exact hs.withRefresh true
  | rds r =>
    rcases execRds_cases r s with ⟨v, -, hv⟩ | ⟨-, hv⟩
    · rw [← next_inj (hv.symm.trans h)]; exact hs.emit _
    · rw [← next_inj (hv.symm.trans h)]; exact hs.raiseErr _ _
  | reset => rw [← next_inj h]; exact resetBlock_inv s

end Invariant

/-- Settles O15, by the three things a step can do and the octet counts the decoder allows. -/
theorem everyStepKeepsTheInvariant : Obligations.EveryStepKeepsTheInvariant := by
  intro s t hs h
  rcases step_cases h with ⟨-, rfl⟩ | ⟨code, word, rest, -, rfl⟩ | ⟨i, rest, hd, he⟩
  · exact hs
  · exact (hs.withInput rest).raiseErr code word
  · exact (hs.withInput rest).exec (wf_of_decode hd) he

/-- Settles O16: the parameters at reset are one legal set. -/
theorem resetStateMeetsTheInvariant : Obligations.ResetStateMeetsTheInvariant := reset_withCfg_inv Config.atReset

/-- Settles O47, by the fields of the reset state. -/
theorem resetValuesAreThoseOfTheSpec : Obligations.ResetValuesAreThoseOfTheSpec :=
  ⟨rfl, rfl, rfl, fun g => by cases g <;> rfl, rfl, rfl, rfl⟩

/-! ## The hex-text -/

theorem hexText_cons (o : Octet) (os : List Octet) :
    hexText (o :: os) = hexDigit (o.toNat / 16) :: hexDigit (o.toNat % 16) :: hexText os := rfl

/-- The sixteen digits differ (R52). -/
theorem hexDigit_injOn {m n : Nat} (hm : m < 16) (hn : n < 16) (h : hexDigit m = hexDigit n) : m = n := by
  have hall : ∀ a b : Fin 16, hexDigit a = hexDigit b → a = b := by decide
  exact congrArg Fin.val (hall ⟨m, hm⟩ ⟨n, hn⟩ h)

/-- The two digits of an octet determine it (R52). -/
theorem octet_eq_of_hexDigits {a b : Octet} (hhi : hexDigit (a.toNat / 16) = hexDigit (b.toNat / 16))
    (hlo : hexDigit (a.toNat % 16) = hexDigit (b.toNat % 16)) : a = b := by
  have ha := a.isLt
  have hb := b.isLt
  have h1 := hexDigit_injOn (by omega) (by omega) hhi
  have h2 := hexDigit_injOn (by omega) (by omega) hlo
  exact BitVec.eq_of_toNat_eq (by omega)

/-- The hex-text has two characters an octet (R52). -/
theorem hexText_length (os : List Octet) : (hexText os).length = 2 * os.length := by
  induction os with
  | nil => rfl
  | cons o os ih => rw [hexText_cons, List.length_cons, List.length_cons, ih, List.length_cons]; omega

/-- The hex-text determines the octets (R22, R52). -/
theorem hexText_injective {a b : List Octet} (h : hexText a = hexText b) : a = b := by
  induction a generalizing b with
  | nil =>
    cases b with
    | nil => rfl
    | cons o os => cases h
  | cons o os ih =>
    cases b with
    | nil => cases h
    | cons o' os' =>
      obtain ⟨hhi, h⟩ := List.cons.inj h
      obtain ⟨hlo, h⟩ := List.cons.inj h
      rw [octet_eq_of_hexDigits hhi hlo, ih h]

/-- Settles O6, octet by octet: each gives two digits, and they determine it. -/
theorem hexTextDeterminesTheOctets : Obligations.HexTextDeterminesTheOctets :=
  fun a _ => ⟨hexText_length a, hexText_injective⟩

/-! ## The event stream -/

/-- The records appended to the event stream are its new records. -/
theorem newRecords_eq {s t : State} {recs : List Event} (h : t.events = s.events ++ recs) : newRecords s t = recs := by
  rw [newRecords, h, List.drop_left]

/-- Where records were appended, the event stream is the old one and its new records (R21). -/
theorem events_eq_append_newRecords {s t : State} (h : ∃ recs, t.events = s.events ++ recs) :
    t.events = s.events ++ newRecords s t := by
  obtain ⟨recs, h⟩ := h
  rw [newRecords_eq h, h]

/-- Settles O13, by what a refusal and each operation append. -/
theorem eventStreamOnlyGrows : Obligations.EventStreamOnlyGrows := by
  intro s t h
  apply events_eq_append_newRecords
  rcases step_cases h with ⟨-, rfl⟩ | ⟨code, word, rest, -, rfl⟩ | ⟨i, rest, -, he⟩
  · exact ⟨[], by simp⟩
  · exact ⟨[.err code word], rfl⟩
  · exact exec_events (s := { s with input := rest }) he

/-- A pass emits address events and composite events alone (R155, R161). -/
theorem endsFrame_of_mem_passRecords {s : State} {g : Group} {n : List Octet} {e : Event}
    (h : e ∈ passRecords s g n) : endsFrame e = false := by
  rcases mem_passRecords h with ⟨-, _, -, rfl⟩ | ⟨-, _, -, rfl⟩ <;> rfl

/-- No operation but `RX` ends the gathering of a frame (R100). -/
theorem endsFrame_of_exec {i : Instr} {s t : State} (hi : ∀ c, i ≠ .rx c) (h : exec i s = .next t) :
    ∀ e ∈ newRecords s t, endsFrame e = false := by
  cases i with
  | rx c => exact absurd rfl (hi c)
  | cls x => rw [← next_inj h, newRecords_eq (emit_events s _)]; simp [endsFrame]
  | diff g n =>
    rw [← next_inj h, newRecords_eq (diffPass_events g n s)]
    exact fun e he => endsFrame_of_mem_passRecords he
  | setref => rw [← next_inj h]; simp [newRecords]
  | rds r =>
    rcases execRds_cases r s with ⟨v, -, hv⟩ | ⟨-, hv⟩
    · rw [← next_inj (hv.symm.trans h), newRecords_eq (emit_events s _)]; simp [endsFrame]
    · rw [← next_inj (hv.symm.trans h), newRecords_eq (raiseErr_events s _ _)]; simp [endsFrame]
  | reset => rw [← next_inj h]; simp [newRecords]

/-! ## The frame of `RX` -/

/-- ALL THAT `RX` CAN DO, BY ITS RECORDS: one drop; no record, and only buffer and counter written; or one Telegram first,
with records after it that are neither (R100, R113, R139). -/
theorem rx_records_cases (c : List Octet) (s : State) :
    (∃ reason n, rx c s = raiseDrop reason n s.clearBuffer ∧ newRecords s (rx c s) = [.drop reason n]) ∨
    (∃ b k, rx c s = { s with buf := b, iter := k } ∧ newRecords s (rx c s) = []) ∨
    (∃ frame b tag recs, rx c s = deliver frame { s with buf := b, iter := 0 } ∧ tag = classify s.cfg.toParams frame ∧
      newRecords s (rx c s) = .tg tag (hintOf tag) (destOf tag) frame :: recs ∧ ∀ e ∈ recs, endsFrame e = false) := by
  rcases rx_cases c s with ⟨r, n, h⟩ | ⟨-, -, h⟩ | ⟨-, -, h⟩ | ⟨-, frame, -, h⟩ <;> rw [h]
  · exact .inl ⟨r, n, rfl, newRecords_eq rfl⟩
  · exact .inr (.inl ⟨[], 0, rfl, newRecords_eq (by simp)⟩)
  · exact .inr (.inl ⟨_, _, rfl, newRecords_eq (by simp)⟩)
  · obtain ⟨recs, he, hm⟩ := deliver_events frame { s with buf := (s.buf ++ c).drop frame.length, iter := 0 }
    refine .inr (.inr ⟨frame, _, _, recs, rfl, rfl, newRecords_eq he, fun e hr => ?_⟩)
    obtain ⟨_, _, -, hp⟩ := hm e hr
    exact endsFrame_of_mem_passRecords hp

@[simp] theorem announce_prev (frame : List Octet) (t : Tag) (s : State) (g : Group) :
    (announce frame t s).prev g = s.prev g := by cases g <;> rfl

@[simp] theorem settleRefresh_prev (t : Tag) (s : State) (g : Group) : (settleRefresh t s).prev g = s.prev g := by
  unfold settleRefresh
  split
  · cases g <;> rfl
  · rfl

/-- A register that no `GROUP_MAP` row of the Telegram's tag names is left alone by `Deliver` (R25, R139). -/
theorem deliver_prev_of_no_row {frame : List Octet} {s : State} {g : Group}
    (h : ∀ row ∈ s.cfg.groupMap, row.tag = classify s.cfg.toParams frame → row.group ≠ g) :
    (deliver frame s).prev g = s.prev g := by
  rw [deliver_eq, settleRefresh_prev]
  rcases passes_prev (userData frame) (rowsFor s.cfg.toParams (classify s.cfg.toParams frame))
    (announce frame (classify s.cfg.toParams frame) s) g with hp | ⟨row, hrow, hg, -⟩
  · rw [hp, announce_prev]
  · obtain ⟨hmem, htag⟩ := List.mem_filter.mp hrow
    exact absurd hg (h row hmem (by simpa using htag))

/-- Where the first of the records is a Telegram and no later one ends a frame, every Telegram among them is the first. -/
theorem tag_eq_of_mem_telegram {tag tag' : Tag} {h h' : Hint} {d d' : Dest} {raw raw' : List Octet} {recs : List Event}
    (hrecs : ∀ e ∈ recs, endsFrame e = false) (hmem : .tg tag' h' d' raw' ∈ .tg tag h d raw :: recs) : tag' = tag := by
  rcases List.mem_cons.mp hmem with he | he
  · cases he; rfl
  · cases hrecs _ he

/-- Where the first of the records is a Telegram and no later one ends a frame, there is no drop among them. -/
theorem drop_not_mem_telegram {tag : Tag} {h : Hint} {d : Dest} {raw : List Octet} {recs : List Event}
    (hrecs : ∀ e ∈ recs, endsFrame e = false) (reason : DropReason) (n : Nat) :
    .drop reason n ∉ .tg tag h d raw :: recs := by
  intro hmem
  rcases List.mem_cons.mp hmem with he | he
  · cases he
  · cases hrecs _ he

/-- Settles O23, by the records of an `RX`: one drop, none, or one Telegram. -/
theorem rxFrame : Obligations.RxFrame := by
  intro s t c h
  rw [← next_inj h]
  obtain ⟨hcfg, hinput, herr⟩ := rx_frame c s
  refine ⟨hcfg, hinput, herr, events_eq_append_newRecords (exec_events (i := .rx c) rfl), ?_⟩
  rcases rx_records_cases c s with ⟨r, n, he, hr⟩ | ⟨b, k, he, hr⟩ | ⟨frame, b, tag, recs, he, htag, hr, hrecs⟩ <;>
    rw [hr, he]
  · exact ⟨by simp, by simp, fun reason m hm => by cases List.mem_singleton.mp hm; rfl,
      fun hno => absurd (List.mem_singleton.mpr rfl) (hno r n), by simp⟩
  · exact ⟨by simp, by simp, by simp, by simp, fun g _ => congrFun (prev_congr rfl rfl rfl rfl) g⟩
  · refine ⟨fun hno => absurd List.mem_cons_self (hno _ _ _ _), fun tag' h' d' raw' hm => ?_,
      fun reason n hm => absurd hm (drop_not_mem_telegram hrecs reason n), fun _ => deliver_lastDrop _ _, fun g hg => ?_⟩
    · rw [tag_eq_of_mem_telegram hrecs hm, deliver_lastTag, deliver_refresh, htag]
      exact ⟨rfl, fun hne => if_neg hne⟩
    · refine (deliver_prev_of_no_row fun row hrow ht => ?_).trans (congrFun (prev_congr rfl rfl rfl rfl) g)
      exact hg _ _ _ _ List.mem_cons_self row hrow (ht.trans htag.symm)

/-! ## `REFRESH` -/

/-- An `SbStatus` Telegram is among the records that lead from `s` to `t` (R159). -/
abbrev EmitsSbStatus (s t : State) : Prop := ∃ h d raw, .tg .sbStatus h d raw ∈ newRecords s t

/-- Records that end no frame hold no Telegram. -/
theorem not_emitsSbStatus {s t : State} (h : ∀ e ∈ newRecords s t, endsFrame e = false) : ¬ EmitsSbStatus s t := by
  rintro ⟨_, _, _, hm⟩
  cases h _ hm

/-- `RX` clears `REFRESH` with an `SbStatus` Telegram and otherwise leaves it (R159). -/
theorem rx_refresh (c : List Octet) (s : State) :
    (EmitsSbStatus s (rx c s) ∧ (rx c s).refresh = false) ∨
    (¬ EmitsSbStatus s (rx c s) ∧ (rx c s).refresh = s.refresh) := by
  unfold EmitsSbStatus
  rcases rx_records_cases c s with ⟨r, n, he, hr⟩ | ⟨b, k, he, hr⟩ | ⟨frame, b, tag, recs, he, htag, hr, hrecs⟩ <;>
    rw [hr, he]
  · exact .inr ⟨by simp, by simp⟩
  · exact .inr ⟨by simp, rfl⟩
  · rw [deliver_refresh, ← htag]
    by_cases hsb : tag = .sbStatus
    · subst hsb
      exact .inl ⟨⟨_, _, _, List.mem_cons_self⟩, if_pos rfl⟩
    · refine .inr ⟨?_, if_neg hsb⟩
      rintro ⟨_, _, _, hm⟩
      exact hsb (tag_eq_of_mem_telegram hrecs hm).symm

/-- ALL THAT CAN HAPPEN TO `REFRESH`: `RESET` and an `SbStatus` Telegram clear it, `SETREF` sets it, and else it stays
(R27, R151, R159, R180). -/
theorem exec_refresh {i : Instr} {s t : State} (h : exec i s = .next t) :
    (i = .reset ∧ t.refresh = false) ∨ (i = .setref ∧ t.refresh = true ∧ ¬ EmitsSbStatus s t) ∨
    (EmitsSbStatus s t ∧ t.refresh = false) ∨ (¬ EmitsSbStatus s t ∧ t.refresh = s.refresh) := by
  have hno : (∀ c, i ≠ .rx c) → ¬ EmitsSbStatus s t := fun hi => not_emitsSbStatus (endsFrame_of_exec hi h)
  cases i with
  | rx c => rw [← next_inj h]; exact .inr (.inr (rx_refresh c s))
  | reset => exact .inl ⟨rfl, by rw [← next_inj h, resetBlock_refresh]⟩
  | setref => exact .inr (.inl ⟨rfl, by rw [← next_inj h], hno (by simp)⟩)
  | cls x => exact .inr (.inr (.inr ⟨hno (by simp), by rw [← next_inj h, emit_refresh]⟩))
  | diff g n => exact .inr (.inr (.inr ⟨hno (by simp), by rw [← next_inj h, diffPass_refresh]⟩))
  | rds r =>
    refine .inr (.inr (.inr ⟨hno (by simp), ?_⟩))
    rcases execRds_cases r s with ⟨v, -, hv⟩ | ⟨-, hv⟩
    · rw [← next_inj (hv.symm.trans h), emit_refresh]
    · rw [← next_inj (hv.symm.trans h), raiseErr_refresh]

/-- A step without an operation leaves `REFRESH` and emits no Telegram (R84, R85, R197). -/
theorem step_refresh_of_no_operation {s t : State} (hd : ∀ i rest, decode s.input ≠ .instr i rest)
    (h : step s = .next t) : ¬ EmitsSbStatus s t ∧ t.refresh = s.refresh := by
  rcases step_cases h with ⟨-, rfl⟩ | ⟨code, word, rest, -, rfl⟩ | ⟨i, rest, hi, -⟩
  · exact ⟨not_emitsSbStatus (by simp [newRecords]), rfl⟩
  · have hr : newRecords s (raiseErr code word { s with input := rest }) = [.err code word] := newRecords_eq rfl
    exact ⟨not_emitsSbStatus (by simp [hr, endsFrame]), rfl⟩
  · exact absurd hi (hd i rest)

/-- All that can happen to `REFRESH` in a step, by the operation at the head of the stream (R27, R159). -/
theorem step_refresh {s t : State} (h : step s = .next t) :
    ((∃ rest, decode s.input = .instr .reset rest) ∧ t.refresh = false) ∨
    ((∃ rest, decode s.input = .instr .setref rest) ∧ t.refresh = true ∧ ¬ EmitsSbStatus s t) ∨
    (EmitsSbStatus s t ∧ t.refresh = false) ∨ (¬ EmitsSbStatus s t ∧ t.refresh = s.refresh) := by
  by_cases hd : ∃ i rest, decode s.input = .instr i rest
  · obtain ⟨i, rest, hd⟩ := hd
    rw [step_of_decode_instr hd] at h
    rcases exec_refresh h with ⟨rfl, ht⟩ | ⟨rfl, ht, he⟩ | hfall | hkeep
    · exact .inl ⟨⟨rest, hd⟩, ht⟩
    · exact .inr (.inl ⟨⟨rest, hd⟩, ht, he⟩)
    · exact .inr (.inr (.inl hfall))
    · exact .inr (.inr (.inr hkeep))
  · exact .inr (.inr (.inr (step_refresh_of_no_operation (fun i rest hi => hd ⟨i, rest, hi⟩) h)))

/-- Settles O42, by all that can happen to `REFRESH` in a step. -/
theorem refreshFallsOnlyBySbStatusOrReset : Obligations.RefreshFallsOnlyBySbStatusOrReset := by
  intro s t h
  rcases step_refresh h with ⟨hd, ht⟩ | ⟨hd, ht, he⟩ | ⟨he, ht⟩ | ⟨he, ht⟩ <;> rw [ht]
  · exact ⟨fun _ _ => .inl hd, fun _ => rfl, nofun⟩
  · exact ⟨nofun, fun he' => absurd he' he, fun _ _ => hd⟩
  · exact ⟨fun _ _ => .inr he, fun _ => rfl, nofun⟩
  · exact ⟨fun hs hf => by simp [hs] at hf, fun he' => absurd he' he, fun hf hs => by simp [hs] at hf⟩

/-! ## `RDS` -/

/-- The header test of the model is that of the statements (R103). -/
theorem isCandidate_iff_candidate (b : List Octet) : isCandidate b = true ↔ Candidate b := by
  rw [isCandidate_iff]
  refine and_congr_right fun hlen => ?_
  rw [List.getD_eq_getElem?_getD, List.getD_eq_getElem?_getD, List.getElem?_eq_getElem (by omega : 0 < b.length),
    List.getElem?_eq_getElem (by omega : 3 < b.length)]
  simp

/-- The length test of the model is that of the statements, where the length octets are there (R105). -/
theorem lengthsAgree_iff_lengthsAgree {b : List Octet} (hlen : 4 ≤ b.length) :
    lengthsAgree b = true ↔ LengthsAgree b := by
  rw [lengthsAgree, beq_iff_eq, LengthsAgree, List.getD_eq_getElem?_getD, List.getD_eq_getElem?_getD,
    List.getElem?_eq_getElem (by omega : 1 < b.length), List.getElem?_eq_getElem (by omega : 2 < b.length)]
  simp

/-- `CAND`, bit 2 of `STATUS` (R29). -/
theorem candidate_and_lengthsAgree_iff (b : List Octet) :
    (isCandidate b && lengthsAgree b) = true ↔ Candidate b ∧ LengthsAgree b := by
  rw [Bool.and_eq_true, isCandidate_iff_candidate]
  exact and_congr_right fun hc => lengthsAgree_iff_lengthsAgree hc.1

/-- `STATUS` as a number, bit by bit (R29). -/
theorem statusWord_toNat (s : State) : (statusWord s).toNat = (if s.refresh then 1 else 0) +
    (if 0 < s.buf.length then 2 else 0) + (if Candidate s.buf ∧ LengthsAgree s.buf then 4 else 0) := by
  simp only [statusWord, append_toNat, BitVec.toNat_ofBool, blen_eq, ← candidate_and_lengthsAgree_iff]
  cases s.refresh <;> cases isCandidate s.buf && lengthsAgree s.buf <;> by_cases h : 0 < s.buf.length <;> simp [h]

/-- A field in the low bits of a status register, zeros above it, keeps its value (R29). -/
theorem zero_append_toNat {m n : Nat} (x : BitVec n) : ((0 : BitVec m) ++ x).toNat = x.toNat := by
  simp

/-- A word is its own value in 16 bits. -/
theorem ofNat_eq_of_toNat_eq {v : Word} {k : Nat} (h : v.toNat = k) : BitVec.ofNat 16 k = v := by
  rw [← h, BitVec.ofNat_toNat, BitVec.setWidth_eq]

/-- A number below 2^16 is the value of a word. -/
theorem exists_word_toNat {k : Nat} (h : k < 65536) : ∃ v : Word, v.toNat = k :=
  ⟨BitVec.ofNat 16 k, by rw [BitVec.toNat_ofNat]; omega⟩

/-- The register the model reads is the one R29 defines. -/
theorem statusReg_of_regValue {s : State} {r : BitVec 4} {v : Word} (h : RegValue s r v) : statusReg s r = some v := by
  rcases h with ⟨rfl, h⟩ | ⟨rfl, h⟩ | ⟨rfl, h⟩ | ⟨rfl, h⟩ | ⟨rfl, h⟩ | ⟨rfl, h⟩ | ⟨rfl, h⟩ | ⟨rfl, h⟩ | ⟨rfl, h⟩ |
    ⟨rfl, h⟩ | ⟨rfl, h⟩ <;> refine congrArg some ?_
  · exact h.symm
  · exact BitVec.eq_of_toNat_eq ((statusWord_toNat s).trans h.symm)
  · exact ofNat_eq_of_toNat_eq h
  · exact BitVec.eq_of_toNat_eq h.symm
  · exact BitVec.eq_of_toNat_eq ((zero_append_toNat _).trans h.symm)
  · exact BitVec.eq_of_toNat_eq ((zero_append_toNat _).trans h.symm)
  · exact BitVec.eq_of_toNat_eq ((zero_append_toNat _).trans h.symm)
  · exact ofNat_eq_of_toNat_eq h
  · exact ofNat_eq_of_toNat_eq h
  · exact ofNat_eq_of_toNat_eq h
  · exact ofNat_eq_of_toNat_eq h

/-- Every legal register has a value where the snapshot lengths fit the register (R24, R29). -/
theorem exists_regValue {s : State} (hs : ∀ g, (s.prev g).length ≤ 2040) {r : BitVec 4} (hr : r ∈ legalRegs) :
    ∃ v, RegValue s r v := by
  have hlen (g : Group) : ∃ v : Word, v.toNat = (s.prev g).length :=
    exists_word_toNat (Nat.lt_of_le_of_lt (hs g) (by decide))
  simp only [legalRegs, List.mem_cons, List.not_mem_nil, or_false] at hr
  rcases hr with rfl | rfl | rfl | rfl | rfl | rfl | rfl | rfl | rfl | rfl | rfl
  · exact ⟨s.cfg.blockId, .inl ⟨rfl, rfl⟩⟩
  · exact ⟨statusWord s, .inr (.inl ⟨rfl, statusWord_toNat s⟩)⟩
  · simpa [RegValue] using exists_word_toNat (k := min s.buf.length 65535) (by omega)
  · exact ⟨s.iter, by simp [RegValue]⟩
  · simpa [RegValue] using exists_word_toNat (Nat.lt_trans s.lastTag.isLt (by decide))
  · simpa [RegValue] using exists_word_toNat (Nat.lt_trans s.lastDrop.isLt (by decide))
  · simpa [RegValue] using exists_word_toNat (Nat.lt_trans s.lastErr.isLt (by decide))
  · simpa [RegValue] using hlen .mp
  · simpa [RegValue] using hlen .sb
  · simpa [RegValue] using hlen .mb
  · simpa [RegValue] using hlen .mbd

/-- Settles O44: the register read is the one of R29, and under R24 its value fits. -/
theorem rdsReportsTheRegister : Obligations.RdsReportsTheRegister := by
  refine ⟨fun s r v h => ?_, fun s hs r hr => exists_regValue hs hr⟩
  rw [exec, execRds, statusReg_of_regValue h]
  rfl

end Sys2Proof.Machine

/-! PROOFS of the family 20_memory: words later in the command stream change nothing of an operation already there in full
(O11), as every operation commutes with an offer of words; the buffer after an `RX`, octet by octet (O24). -/

namespace Sys2Proof

/-! ## The decoder and words offered later -/

/-- A decoding with `more` words at the end of the stream it was read from. -/
def Decoded.withLater (more : List Word) : Decoded → Decoded
  | .wait => .wait
  | .instr i rest => .instr i (rest ++ more)
  | .bad code word rest => .bad code word (rest ++ more)

/-- Once an operation is there in full, the decoder reads it from its own words, and words after them are left (R85). -/
theorem decode_append {ws : List Word} (h : decode ws ≠ .wait) (more : List Word) :
    decode (ws ++ more) = (decode ws).withLater more := by
  rcases decode_cases ws with ⟨-, hd⟩ | ⟨w, rest, -, -, hd⟩ | ⟨w, data, rest, rfl, hl, -⟩
  · exact absurd hd h
  · exact absurd hd h
  · rw [List.cons_append, List.append_assoc, decode_cons hl, decode_cons hl]
    cases selectRow w with
    | none => rfl
    | some m =>
      dsimp only
      cases assemble m w data with
      | none => rfl
      | some i => rfl

end Sys2Proof

namespace Sys2Proof.Machine

open Sys2Proof.Spec

/-! ## Every operation commutes with an offer of words -/

section Offer

variable (s : State) (more : List Word)

theorem diffPass_offer (g : Group) (n : List Octet) :
    diffPass g n (s.offer more) = (diffPass g n s).offer more := by
  cases g <;> rfl

theorem passes_offer (u : List Octet) (rows : List GroupRow) :
    passes u rows (s.offer more) = (passes u rows s).offer more := by
  induction rows generalizing s with
  | nil => rfl
  | cons row rows ih =>
    have hrow : deliverRow u (s.offer more) row = (deliverRow u s row).offer more :=
      diffPass_offer s more row.group (groupSlice row u)
    calc passes u rows (deliverRow u (s.offer more) row)
      _ = passes u rows ((deliverRow u s row).offer more) := by rw [hrow]
      _ = (passes u rows (deliverRow u s row)).offer more := ih (deliverRow u s row)

theorem settleRefresh_offer (t : Tag) : settleRefresh t (s.offer more) = (settleRefresh t s).offer more := by
  unfold settleRefresh
  split <;> rfl

theorem deliver_offer (frame : List Octet) : deliver frame (s.offer more) = (deliver frame s).offer more := by
  have hannounce (t : Tag) : announce frame t (s.offer more) = (announce frame t s).offer more := rfl
  rw [deliver_eq, deliver_eq, offer_cfg, hannounce, passes_offer, settleRefresh_offer]

theorem antiRunaway_offer (k : Nat) : antiRunaway k (s.offer more) = (antiRunaway k s).offer more := by
  unfold antiRunaway
  rw [offer_cfg, blen_eq, offer_buf, ← blen_eq]
  split
  · split <;> rfl
  · rfl

theorem rxDetect_offer (k : Nat) : rxDetect k (s.offer more) = (rxDetect k s).offer more := by
  unfold rxDetect
  rw [offer_cfg, offer_buf]
  cases detect s.cfg.toParams s.buf with
  | wait => exact antiRunaway_offer s more k
  | noCand => exact antiRunaway_offer s more k
  | dropLen => rfl
  | dropCheck => rfl
  | emit frame => exact deliver_offer { s with buf := bufDrop s.buf frame.length, iter := 0 } more frame

theorem rx_offer (c : List Octet) : rx c (s.offer more) = (rx c s).offer more := by
  have hoverflows : overflows (s.offer more) c = overflows s c := rfl
  unfold rx
  rw [hoverflows]
  split
  · rfl
  · exact rxDetect_offer (s.append c) more (s.iter.toNat + 1)

/-- No status register shows the command stream (R29). -/
theorem statusReg_offer (r : BitVec 4) : statusReg (s.offer more) r = statusReg s r := rfl

end Offer

/-- No operation reads the words after its own, and each leaves them where they are (R21, R60 (a)). -/
theorem exec_offer {i : Instr} {s t : State} (h : exec i s = .next t) (more : List Word) :
    exec i (s.offer more) = .next (t.offer more) := by
  cases i with
  | rx c => rw [← next_inj h, ← rx_offer]; rfl
  | cls x => rw [← next_inj h]; rfl
  | diff g n => rw [← next_inj h, ← diffPass_offer]; rfl
  | setref => rw [← next_inj h]; rfl
  | rds r =>
    rw [exec, execRds, statusReg_offer]
    rcases execRds_cases r s with ⟨v, hv, hr⟩ | ⟨hv, hr⟩
    · rw [hv, ← next_inj (hr.symm.trans h)]; rfl
    · rw [hv, ← next_inj (hr.symm.trans h)]; rfl
  | reset => rw [← next_inj h]; rfl

/-- A step on a stream that holds a refused operation takes the command error (R197). -/
theorem step_of_decode_bad {s : State} {code : ErrCode} {word : Word} {rest : List Word}
    (h : decode s.input = .bad code word rest) : step s = .next (raiseErr code word { s with input := rest }) := by
  unfold step
  rw [h]

/-- A step that does not wait commutes with an offer of words (R60 (a), R85). -/
theorem step_offer {s t : State} (hw : decode s.input ≠ .wait) (h : step s = .next t) (more : List Word) :
    step (s.offer more) = .next (t.offer more) := by
  have hd : decode (s.offer more).input = (decode s.input).withLater more := decode_append hw more
  rcases step_cases h with ⟨hwait, -⟩ | ⟨code, word, rest, hbad, rfl⟩ | ⟨i, rest, hi, he⟩
  · exact absurd hwait hw
  · rw [hbad] at hd
    exact step_of_decode_bad hd
  · rw [hi] at hd
    exact (step_of_decode_instr hd).trans (exec_offer he more)

/-- Settles O11: the decoder reads the operation from its own words, and no operation reads further. -/
theorem laterWordsDoNotMatter : Obligations.LaterWordsDoNotMatter :=
  fun _ _ more hw h => step_offer hw h more

/-! ## The buffer after an `RX` -/

/-- Where no record after the first ends a frame, a record that ends one is the first (R100). -/
theorem eq_first_of_endsFrame {e first : Event} {recs : List Event} (hrecs : ∀ e ∈ recs, endsFrame e = false)
    (hmem : e ∈ first :: recs) (he : endsFrame e = true) : e = first :=
  (List.mem_cons.mp hmem).resolve_right fun hr => by simp [hrecs e hr] at he

/-- THE BUFFER AFTER AN `RX`, BY ITS RECORDS: empty with a drop; buffer and chunk with no record; and what follows the frame
in buffer and chunk with a Telegram (R51, R100, R109). -/
theorem rx_buffer_cases (c : List Octet) (s : State) :
    (∃ reason n, newRecords s (rx c s) = [.drop reason n] ∧ (rx c s).buf = []) ∨
    (newRecords s (rx c s) = [] ∧ (rx c s).buf = bufAppend s.buf c) ∨
    (∃ tag h d frame recs, newRecords s (rx c s) = .tg tag h d frame :: recs ∧
      (∀ e ∈ recs, endsFrame e = false) ∧ (rx c s).buf = bufDrop (s.buf ++ c) frame.length) := by
  rcases rx_cases c s with ⟨reason, n, h⟩ | ⟨hs, hc, h⟩ | ⟨-, -, h⟩ | ⟨-, frame, -, h⟩ <;> rw [h]
  · exact .inl ⟨reason, n, newRecords_eq rfl, rfl⟩
  · exact .inr (.inl ⟨newRecords_eq (by simp), by rw [hs, hc]; rfl⟩)
  · exact .inr (.inl ⟨newRecords_eq (by simp), rfl⟩)
  · obtain ⟨recs, he, hm⟩ := deliver_events frame { s with buf := (s.buf ++ c).drop frame.length, iter := 0 }
    refine .inr (.inr ⟨_, _, _, frame, recs, newRecords_eq he, fun e hr => ?_, deliver_buf frame _⟩)
    obtain ⟨_, _, -, hp⟩ := hm e hr
    exact endsFrame_of_mem_passRecords hp

/-- Settles O24, by the reads after `BufClear`, `BufAppend` and `BufDrop`. -/
theorem rxBufferOctetByOctet : Obligations.RxBufferOctetByOctet := by
  intro s t c h
  rw [← next_inj h]
  rcases rx_buffer_cases c s with ⟨reason, n, hr, hb⟩ | ⟨hr, hb⟩ | ⟨tag, hint, d, frame, recs, hr, hrecs, hb⟩ <;>
    rw [hr, hb]
  · exact ⟨by simp, fun _ _ _ a => read_eq_none (Nat.zero_le a), nofun⟩
  · exact ⟨nofun, nofun, fun _ => ⟨fun a => read_append_left c, read_append_right s.buf c⟩⟩
  · refine ⟨fun tag' h' d' raw hm a => ?_, fun reason n hm => absurd hm (drop_not_mem_telegram hrecs reason n), nofun⟩
    cases eq_first_of_endsFrame hrecs hm rfl
    exact read_drop (s.buf ++ c) frame.length a

end Sys2Proof.Machine

/-! PROOFS of the family 30_encoding: the encoder and the decoder are inverse to each other (O1, O2), on the spec's own
words as well (O3), and no word selects two rows (O4); what a step consumes, refuses and answers (O8, O9, O10, O45);
`FRAME(u)` (O33). -/

namespace Sys2Proof

open Spec

/-! ## The rows of the operation table -/

/-- The condition of a row of the operation table, of the command word as a number (R80). -/
def Mnemonic.Selected (w : Word) : Mnemonic → Prop
  | .rx => w.toNat / 4096 = 1
  | .cls => w.toNat / 4096 = 2
  | .diff => w.toNat / 1024 = 12
  | .setref => w.toNat = 0x4000
  | .rds => w.toNat / 16 = 0x500
  | .reset => w.toNat = 0xF000

/-- A word selects a row iff it meets the row's condition as a number: each row is compared with each answer that
`selectRow_eq` gives (R80). -/
theorem selectRow_eq_some_iff (w : Word) (m : Mnemonic) : selectRow w = some m ↔ m.Selected w := by
  rw [selectRow_eq]
  cases m <;> simp only [Mnemonic.Selected] <;> split_ifs <;>
    simp only [Option.some.injEq, reduceCtorEq, true_iff, false_iff] <;> omega

/-- A word that meets no row's condition selects no row (R80). -/
theorem selectRow_eq_none_of {w : Word} (h : ∀ m : Mnemonic, ¬ m.Selected w) : selectRow w = none :=
  Option.eq_none_iff_forall_ne_some.mpr fun m hm => h m ((selectRow_eq_some_iff w m).mp hm)

/-- Where a word selects two rows, the rows agree on the bits that both masks keep (R80). -/
theorem value_and_mask_of_selects {w : Word} {q r : OpRow} (hq : q.selects w = true) (hr : r.selects w = true) :
    q.value &&& r.mask = r.value &&& q.mask := by
  rw [← beq_iff_eq.mp hq, ← beq_iff_eq.mp hr, BitVec.and_assoc, BitVec.and_assoc, BitVec.and_comm q.mask]

/-- Settles O4: any two rows of the table differ in a bit that both masks keep. -/
theorem tableRowsAreDisjoint : Obligations.TableRowsAreDisjoint := by
  intro w q r hq hr hqw hrw
  have hrows : ∀ q ∈ opTable, ∀ r ∈ opTable, q.value &&& r.mask = r.value &&& q.mask → q = r := by decide
  exact hrows q hq r hr (value_and_mask_of_selects hqw hrw)

/-! ## The encoder, then the decoder -/

/-- The row an operation stands in (R80). -/
def Instr.mnemonic : Instr → Mnemonic
  | .rx _ => .rx
  | .cls _ => .cls
  | .diff _ _ => .diff
  | .setref => .setref
  | .rds _ => .rds
  | .reset => .reset

/-- The command word of a well-formed operation counts its data octets (R80, R85). -/
theorem dataCount_commandWord {i : Instr} (h : i.wf = true) : dataCount (commandWord i) = (dataOf i).length := by
  cases i with
  | rx c => exact Laws.EncodeLength.rx c h
  | cls x => exact Laws.EncodeLength.cls x h
  | diff g n => exact Laws.EncodeLength.diff g n h
  | setref => exact Laws.EncodeLength.setref h
  | rds r => exact Laws.EncodeLength.rds r h
  | reset => exact Laws.EncodeLength.reset h

/-- The command word of a well-formed operation selects the operation's row (R80). -/
theorem selectRow_commandWord {i : Instr} (h : i.wf = true) : selectRow (commandWord i) = some i.mnemonic := by
  rw [selectRow_eq_some_iff]
  cases i with
  | rx c =>
    have hc : c.length ≤ 4095 := by simpa [Instr.wf] using h
    simp only [Instr.mnemonic, Mnemonic.Selected, commandWord_rx_toNat c hc]
    omega
  | cls x =>
    have hx : x.length ≤ 4095 := by simpa [Instr.wf] using h
    simp only [Instr.mnemonic, Mnemonic.Selected, commandWord_cls_toNat x hx]
    omega
  | diff g n =>
    have hn : n.length ≤ 255 := by simpa [Instr.wf] using h
    have hg := g.code.isLt
    simp only [Instr.mnemonic, Mnemonic.Selected, commandWord_diff_toNat g n hn]
    omega
  | setref => rfl
  | rds r =>
    have hr := r.isLt
    simp only [Instr.mnemonic, Mnemonic.Selected, commandWord_rds_toNat]
    omega
  | reset => rfl

/-- The group field of a `DIFF` word (R80, R81). -/
theorem groupField_commandWord (g : Group) {n : List Octet} (h : n.length ≤ 255) :
    groupField (commandWord (.diff g n)) = g.code := by
  have hg := g.code.isLt
  apply BitVec.eq_of_toNat_eq
  rw [groupField_toNat, commandWord_diff_toNat g n h]
  omega

/-- The register field of an `RDS` word (R80, R81). -/
theorem regField_commandWord (r : BitVec 4) : regField (commandWord (.rds r)) = r := by
  have hr := r.isLt
  apply BitVec.eq_of_toNat_eq
  rw [regField_toNat, commandWord_rds_toNat]
  omega

/-- The operands of a well-formed operation are assembled from its own words (R81). -/
theorem assemble_encode {i : Instr} (h : i.wf = true) :
    assemble i.mnemonic (commandWord i) ((dataOf i).map dataWord) = some i := by
  cases i with
  | rx os | cls os => simp [assemble, Instr.mnemonic, dataOf]
  | diff g n =>
    have hn : n.length ≤ 255 := by simpa [Instr.wf] using h
    simp [assemble, Instr.mnemonic, dataOf, groupField_commandWord g hn]
  | setref => rfl
  | rds r => simp [assemble, Instr.mnemonic, regField_commandWord]
  | reset => rfl

section Complete

variable {w : Word} {data : List Word}

/-- A stream that holds all the words of an operation with a row and good data words is read as that operation (R80). -/
theorem decode_of_assemble_some (hl : data.length = dataCount w) {m : Mnemonic} (hm : selectRow w = some m) {i : Instr}
    (ha : assemble m w data = some i) (rest : List Word) : decode (w :: (data ++ rest)) = .instr i rest := by
  simp only [decode_cons hl, hm, ha]

/-- A bad data word: the operation is refused with all its words (R84 (c)). -/
theorem decode_of_assemble_none (hl : data.length = dataCount w) {m : Mnemonic} (hm : selectRow w = some m)
    (ha : assemble m w data = none) (rest : List Word) : decode (w :: (data ++ rest)) = .bad .badData w rest := by
  simp only [decode_cons hl, hm, ha]

/-- A word that selects no row: the operation is refused with all its words (R84 (a), (b)). -/
theorem decode_of_selectRow_none (hl : data.length = dataCount w) (hm : selectRow w = none) (rest : List Word) :
    decode (w :: (data ++ rest)) = .bad (rowError w) w rest := by
  simp only [decode_cons hl, hm]

/-- ALL THE DECODER CAN ANSWER on a stream that holds all the words of its first operation: a refusal or an operation, the
words after it left (R84, R85). -/
theorem decode_complete_cases (hl : data.length = dataCount w) (rest : List Word) :
    (∃ code, decode (w :: (data ++ rest)) = .bad code w rest) ∨ ∃ i, decode (w :: (data ++ rest)) = .instr i rest := by
  cases hm : selectRow w with
  | none => exact .inl ⟨_, decode_of_selectRow_none hl hm rest⟩
  | some m =>
    cases ha : assemble m w data with
    | none => exact .inl ⟨_, decode_of_assemble_none hl hm ha rest⟩
    | some i => exact .inr ⟨i, decode_of_assemble_some hl hm ha rest⟩

end Complete

/-- The decoder reads an encoded operation back and leaves the words after it (R80, R81). -/
theorem decode_encode {i : Instr} (h : i.wf = true) (rest : List Word) : decode (encode i ++ rest) = .instr i rest :=
  decode_of_assemble_some (by rw [List.length_map, dataCount_commandWord h]) (selectRow_commandWord h)
    (assemble_encode h) rest

/-- Settles O1: the command word selects the operation's row and counts its data words, and the fields are read back. -/
theorem encodedOperationsDecodeBack : Obligations.EncodedOperationsDecodeBack :=
  fun _ rest h => decode_encode h rest

/-! ## The decoder, then the encoder -/

/-- The model's count of data words is that of the statements (R81, R85). -/
theorem dataCount_eq_dataWords (w : Word) : dataCount w = dataWords w := by
  simp only [dataCount, dataWords, opField_eq_iff, argField_toNat, diffCountField_toNat]
  rfl

/-- The data words of an assembled operation carry its octets (R79, R81). -/
theorem map_dataWord_of_assemble {m : Mnemonic} {w : Word} {data : List Word} {i : Instr} (hm : selectRow w = some m)
    (hl : data.length = dataCount w) (h : assemble m w data = some i) : (dataOf i).map dataWord = data := by
  have hs := (selectRow_eq_some_iff w m).mp hm
  have hnil (hop : 4 ≤ w.toNat / 4096) : data = [] := by
    rw [dataCount_eq_dataWords, dataWords, if_neg (by omega), if_neg (by omega)] at hl
    exact List.eq_nil_of_length_eq_zero hl
  cases m with
  | rx | cls | diff =>
    obtain ⟨os, hos, rfl⟩ := Option.map_eq_some_iff.mp h
    exact (dataOctets_eq_some hos).symm
  | setref | rds | reset =>
    cases h
    simp only [Mnemonic.Selected] at hs
    exact (hnil (by omega)).symm

/-- The command word of an assembled operation is the word it was assembled from (R80, R81). -/
theorem commandWord_of_assemble {m : Mnemonic} {w : Word} {data : List Word} {i : Instr} (hm : selectRow w = some m)
    (hl : data.length = dataCount w) (h : assemble m w data = some i) : commandWord i = w := by
  have hs := (selectRow_eq_some_iff w m).mp hm
  have hwf := assemble_wf hm hl h
  rw [← map_dataWord_of_assemble hm hl h, List.length_map, dataCount_eq_dataWords, dataWords] at hl
  apply BitVec.eq_of_toNat_eq
  cases m with
  | rx =>
    obtain ⟨c, -, rfl⟩ := Option.map_eq_some_iff.mp h
    simp only [Mnemonic.Selected, dataOf] at hs hl
    rw [commandWord_rx_toNat c (by simpa [Instr.wf] using hwf), hl, if_pos (.inl hs)]
    omega
  | cls =>
    obtain ⟨x, -, rfl⟩ := Option.map_eq_some_iff.mp h
    simp only [Mnemonic.Selected, dataOf] at hs hl
    rw [commandWord_cls_toNat x (by simpa [Instr.wf] using hwf), hl, if_pos (.inr hs)]
    omega
  | diff =>
    obtain ⟨n, -, rfl⟩ := Option.map_eq_some_iff.mp h
    simp only [Mnemonic.Selected, dataOf] at hs hl
    rw [commandWord_diff_toNat _ n (by simpa [Instr.wf] using hwf), code_ofCode, groupField_toNat, hl,
      if_neg (by omega), if_pos (by omega)]
    omega
  | setref => cases h; exact hs.symm
  | rds =>
    cases h
    simp only [Mnemonic.Selected] at hs
    rw [commandWord_rds_toNat, regField_toNat]
    omega
  | reset => cases h; exact hs.symm

/-- The words an operation was read from are its encoding (R80, R85). -/
theorem eq_encode_of_decode {ws rest : List Word} {i : Instr} (h : decode ws = .instr i rest) :
    ws = encode i ++ rest := by
  rcases decode_cases ws with ⟨-, hd⟩ | ⟨_, _, -, -, hd⟩ | ⟨w, data, rest', rfl, hl, -⟩
  · cases hd.symm.trans h
  · cases hd.symm.trans h
  · cases hm : selectRow w with
    | none => cases (decode_of_selectRow_none hl hm rest').symm.trans h
    | some m =>
      cases ha : assemble m w data with
      | none => cases (decode_of_assemble_none hl hm ha rest').symm.trans h
      | some j =>
        cases (decode_of_assemble_some hl hm ha rest').symm.trans h
        rw [encode, commandWord_of_assemble hm hl ha, map_dataWord_of_assemble hm hl ha, List.cons_append]

/-- Settles O2: the fields the operands were assembled from are all the bits the row's mask leaves free. -/
theorem decodedWordsAreTheEncoding : Obligations.DecodedWordsAreTheEncoding :=
  fun _ _ _ h => ⟨wf_of_decode h, eq_encode_of_decode h⟩

/-- Settles O3, by decoding the eight streams. -/
theorem specWordsDecodeAsListed : Obligations.SpecWordsDecodeAsListed := by
  unfold Obligations.SpecWordsDecodeAsListed
  decide

end Sys2Proof

namespace Sys2Proof

open Machine Spec

/-! ## Waiting -/

/-- The decoder waits on a stream that holds a word iff data words are withheld (R85). -/
theorem decode_eq_wait_iff (w : Word) (rest : List Word) : decode (w :: rest) = .wait ↔ rest.length < dataWords w := by
  rw [← dataCount_eq_dataWords]
  refine ⟨fun h => ?_, decode_wait⟩
  rcases decode_cases (w :: rest) with ⟨hnil, -⟩ | ⟨_, _, hws, hlt, -⟩ | ⟨_, _, _, -, -, ⟨_, hd⟩ | ⟨_, hd⟩⟩
  · cases hnil
  · cases hws
    exact hlt
  · cases hd.symm.trans h
  · cases hd.symm.trans h

end Sys2Proof

namespace Sys2Proof.Machine

open Sys2Proof.Spec

/-- A step that waits changes nothing (R85). -/
theorem step_of_decode_wait {s : State} (h : decode s.input = .wait) : step s = .next s := by
  unfold step
  rw [h]

/-- A step on a stream that holds all the words of an operation consumes exactly those (R85). -/
theorem step_input_of_complete {s t : State} {w : Word} {data rest : List Word} (hi : s.input = w :: (data ++ rest))
    (hl : data.length = dataCount w) (h : step s = .next t) : t.input = rest := by
  rcases decode_complete_cases hl rest with ⟨code, hd⟩ | ⟨i, hd⟩ <;> rw [← hi] at hd
  · rw [← next_inj ((step_of_decode_bad hd).symm.trans h), raiseErr_input]
  · exact (exec_outside ((step_of_decode_instr hd).symm.trans h)).2

/-- Settles O8: the decoder counts the words by the first one, and what it leaves no operation touches. -/
theorem firstWordTellsTheLength : Obligations.FirstWordTellsTheLength := by
  refine ⟨fun s hi => ?_, fun s w rest hi hlt => ?_, fun s t w data rest hi hl h => ?_⟩
  · exact step_of_decode_wait (by rw [hi]; rfl)
  · exact step_of_decode_wait (by rw [hi]; exact (decode_eq_wait_iff w rest).mpr hlt)
  · exact step_input_of_complete hi (hl.trans (dataCount_eq_dataWords w).symm) h

/-! ## Every step answers -/

/-- A step always answers a next state (R202). -/
theorem step_next (s : State) : ∃ t, step s = .next t := by
  cases hd : decode s.input with
  | wait => exact ⟨_, step_of_decode_wait hd⟩
  | instr i rest => rw [step_of_decode_instr hd]; exact exec_next i _
  | bad code word rest => exact ⟨_, step_of_decode_bad hd⟩

/-- Every record of a comparator pass is an address record: an `AE` or an `SBE` (R154, R155). -/
theorem addressRecord_of_mem_passRecords {s : State} {g : Group} {n : List Octet} {e : Event}
    (h : e ∈ passRecords s g n) : (∃ g a v, e = .ae g a v) ∨ ∃ a b, e = .sbe a b := by
  rcases mem_passRecords h with ⟨-, _, -, rfl⟩ | ⟨-, _, -, rfl⟩
  · exact .inl ⟨_, _, _, rfl⟩
  · exact .inr ⟨_, _, rfl⟩

/-- ALL THAT `RX` CAN EMIT: nothing, one drop, or one Telegram with address records after it (R100, R139). -/
theorem rx_emits (c : List Octet) (s : State) :
    newRecords s (rx c s) = [] ∨ (∃ reason n, newRecords s (rx c s) = [.drop reason n]) ∨
    (∃ tag h d raw recs, newRecords s (rx c s) = .tg tag h d raw :: recs ∧ ∀ e ∈ recs, endsFrame e = false ∧
      ((∃ g a v, e = .ae g a v) ∨ ∃ a b, e = .sbe a b)) := by
  rcases rx_cases c s with ⟨reason, n, h⟩ | ⟨-, -, h⟩ | ⟨-, -, h⟩ | ⟨-, frame, -, h⟩ <;> rw [h]
  · exact .inr (.inl ⟨reason, n, newRecords_eq rfl⟩)
  · exact .inl (newRecords_eq (by simp))
  · exact .inl (newRecords_eq (by simp))
  · obtain ⟨recs, he, hm⟩ := deliver_events frame { s with buf := (s.buf ++ c).drop frame.length, iter := 0 }
    refine .inr (.inr ⟨_, _, _, _, recs, newRecords_eq he, fun e hr => ?_⟩)
    obtain ⟨_, _, -, hp⟩ := hm e hr
    exact ⟨endsFrame_of_mem_passRecords hp, addressRecord_of_mem_passRecords hp⟩

/-- Settles O10: each answer of the decoder gives a next state, and it waits on a word only for data words. -/
theorem everyStepAnswers : Obligations.EveryStepAnswers := by
  refine ⟨step_next, fun s t c h => next_inj h ▸ rx_emits c s, fun s w rest hi hd => ?_⟩
  have hlt := (decode_eq_wait_iff w rest).mp (hi ▸ hd)
  exact ⟨Nat.zero_lt_of_lt hlt, hlt⟩

/-! ## Refused operations -/

/-- The reserved register numbers (R182). -/
theorem not_mem_legalRegs_iff (r : BitVec 4) : r ∉ legalRegs ↔ r.toNat ∈ [7, 12, 13, 14, 15] := by
  revert r
  decide

/-- A reserved register has no value (R182). -/
theorem statusReg_reserved {r : BitVec 4} (h : r ∉ legalRegs) (s : State) : statusReg s r = none := by
  have hr : r = 7 ∨ r = 12 ∨ r = 13 ∨ r = 14 ∨ r = 15 := by
    revert r
    decide
  rcases hr with rfl | rfl | rfl | rfl | rfl <;> rfl

/-- `RDS` of a reserved register takes the command error (R84 (b), R182). -/
theorem exec_rds_reserved {r : BitVec 4} (h : r ∉ legalRegs) (s : State) :
    exec (.rds r) s = .next (raiseErr .badOperand (commandWord (.rds r)) s) := by
  rw [exec, execRds, statusReg_reserved h]

/-- Settles O45: the register has no value, and the refusal writes code 3 and one record. -/
theorem rdsOfAReservedRegisterIsRefused : Obligations.RdsOfAReservedRegisterIsRefused := by
  intro s r h
  rw [ofNat_eq_of_toNat_eq (commandWord_rds_toNat r)]
  exact exec_rds_reserved h s

/-- The operations that exist, by number (R84 (a)). -/
theorem legalOp_opField_iff (w : Word) : legalOp (opField w) = true ↔ w.toNat / 4096 ∈ [1, 2, 3, 4, 5, 15] := by
  simp only [legalOp, Bool.or_eq_true, beq_iff_eq, opField_eq_iff, List.mem_cons, List.not_mem_nil, or_false, or_assoc]
  rfl

/-- A data word with one of bits 15 to 8 set carries no octet (R84 (c)). -/
theorem dataOctet_eq_none_of {d : Word} (h : d.toNat / 256 ≠ 0) : dataOctet d = none := by
  cases hd : dataOctet d with
  | none => rfl
  | some o =>
    have ho := o.isLt
    rw [dataOctet_eq_some hd, dataWord, zero_append_toNat] at h
    omega

section Refused

variable {w : Word} {data : List Word} (hl : data.length = dataCount w) (rest : List Word)
include hl

/-- An operation that does not exist is refused by its number alone (R84 (a), R198). -/
theorem decode_of_illegalOp (h : RefusedWith w data .illegalOp) :
    decode (w :: (data ++ rest)) = .bad .illegalOp w rest := by
  simp only [RefusedWith, List.mem_cons, List.not_mem_nil, or_false] at h
  have hrow : selectRow w = none := selectRow_eq_none_of fun m hm => by
    cases m <;> simp only [Mnemonic.Selected] at hm <;> omega
  have hop : ¬ legalOp (opField w) = true := by
    rw [legalOp_opField_iff]
    simp only [List.mem_cons, List.not_mem_nil, or_false]
    omega
  rw [decode_of_selectRow_none hl hrow, rowError, if_neg hop]

/-- A bad operand is refused: by the decoder where a reserved bit is set, and as a reserved register where none is
(R84 (b), R182). -/
theorem decode_of_badOperand (h : RefusedWith w data .badOperand) :
    decode (w :: (data ++ rest)) = .bad .badOperand w rest ∨
    ∃ r, r ∉ legalRegs ∧ commandWord (.rds r) = w ∧ decode (w :: (data ++ rest)) = .instr (.rds r) rest := by
  simp only [RefusedWith] at h
  by_cases hrds : w.toNat / 16 = 0x500
  · have hrow : selectRow w = some .rds := (selectRow_eq_some_iff w .rds).mpr hrds
    refine .inr ⟨regField w, ?_, commandWord_of_assemble hrow hl rfl, decode_of_assemble_some hl hrow rfl rest⟩
    rw [not_mem_legalRegs_iff, regField_toNat]
    rcases h with ⟨hdiff, -⟩ | ⟨hsetref, -⟩ | ⟨hreset, -⟩ | ⟨-, hbits | hreg⟩
    · omega
    · omega
    · omega
    · omega
    · exact hreg
  · have hrow : selectRow w = none := selectRow_eq_none_of fun m hm => by
      cases m <;> simp only [Mnemonic.Selected] at hm <;> omega
    have hop : legalOp (opField w) = true := by
      rw [legalOp_opField_iff]
      simp only [List.mem_cons, List.not_mem_nil, or_false]
      omega
    rw [decode_of_selectRow_none hl hrow, rowError, if_pos hop]
    exact .inl rfl

/-- One bad data word refuses the operation, wherever it stands (R84 (c)). -/
theorem decode_of_badData (h : RefusedWith w data .badData) : decode (w :: (data ++ rest)) = .bad .badData w rest := by
  obtain ⟨hrow, d, hd, hbad⟩ := h
  have hnone : dataOctets data = none := dataOctets_bad hd (dataOctet_eq_none_of hbad)
  rcases hrow with hrx | hcls | hdiff
  · exact decode_of_assemble_none hl ((selectRow_eq_some_iff w .rx).mpr hrx) (by rw [assemble, hnone]; rfl) rest
  · exact decode_of_assemble_none hl ((selectRow_eq_some_iff w .cls).mpr hcls) (by rw [assemble, hnone]; rfl) rest
  · exact decode_of_assemble_none hl ((selectRow_eq_some_iff w .diff).mpr hdiff) (by rw [assemble, hnone]; rfl) rest

/-- A refused command word takes its command error, with all its words consumed (R84, R197). -/
theorem step_of_refusedWith {s : State} (hi : s.input = w :: (data ++ rest)) {code : ErrCode}
    (h : RefusedWith w data code) : step s = .next (raiseErr code w { s with input := rest }) := by
  cases code with
  | illegalOp => exact step_of_decode_bad (hi ▸ decode_of_illegalOp hl rest h)
  | badData => exact step_of_decode_bad (hi ▸ decode_of_badData hl rest h)
  | badOperand =>
    rcases decode_of_badOperand hl rest h with hd | ⟨r, hr, hw, hd⟩ <;> rw [← hi] at hd
    · exact step_of_decode_bad hd
    · rw [step_of_decode_instr hd, exec_rds_reserved hr, hw]

end Refused

/-- Settles O9: each refused command word takes the command error of its name, which writes `LASTERR` and one record. -/
theorem refusedOperationsOnlyReport : Obligations.RefusedOperationsOnlyReport :=
  fun _ w _ rest _ hi hl h => step_of_refusedWith (hl.trans (dataCount_eq_dataWords w).symm) rest hi h

/-! ## `FRAME(u)` -/

/-- The octets `68 L L 68 u CK END` (R89). -/
def frameOctets (u : List Octet) (ck fin : Octet) : List Octet :=
  [Config.start, BitVec.ofNat 8 u.length, BitVec.ofNat 8 u.length, Config.start] ++ u ++ [ck, fin]

/-- Where `FRAME(u)` is defined, and what it is (R89). -/
theorem frameOf_eq_some_iff (p : Params) (u frame : List Octet) : frameOf p u = some frame ↔
    ∃ f e, p.valid = .ck f e ∧ u.length ≤ 255 ∧ (e = none ∨ e = some p.endOctet) ∧
      frameOctets u (checkOctet f u) p.endOctet = frame := by
  unfold frameOf
  cases hv : p.valid with
  | unnamed => simp
  | ck f e => simp [frameOctets, and_assoc]

section Frame

variable (u : List Octet) (ck fin : Octet)

theorem frameOctets_length : (frameOctets u ck fin).length = u.length + 6 := by simp [frameOctets]

/-- The length octet gives the number of user octets back (R71). -/
theorem lengthOctet_frameOctets (h : u.length ≤ 255) : lengthOctet (frameOctets u ck fin) = u.length := by
  change (BitVec.ofNat 8 u.length).toNat = u.length
  rw [BitVec.toNat_ofNat]
  omega

/-- The octets have the shape of a frame (R70, R74). -/
theorem frameShape_frameOctets (h : u.length ≤ 255) : FrameShape (frameOctets u ck fin) :=
  ⟨rfl, rfl, rfl, (frameOctets_length u ck fin).trans
    (congrArg (· + 6) (lengthOctet_frameOctets u ck fin h).symm)⟩

/-- Octet `4 + L` is the check octet (R107). -/
theorem frameOctets_check : (frameOctets u ck fin)[4 + u.length]? = some ck := by
  rw [Nat.add_comm]
  simp [frameOctets]

/-- Octet `5 + L` is the terminator (R107). -/
theorem frameOctets_terminator : (frameOctets u ck fin)[5 + u.length]? = some fin := by
  rw [Nat.add_comm]
  simp [frameOctets]

/-- The L octets behind the header are the user data (R107). -/
theorem frameOctets_user : ((frameOctets u ck fin).drop 4).take u.length = u := by
  simp [frameOctets]

/-- With the check octet of its user data and a terminator that `e` accepts, the frame is valid (R108). -/
theorem validCk_frameOctets (f : CheckFn) (e : Option Octet) (he : e = none ∨ e = some fin) :
    validCk f e (frameOctets u (checkOctet f u) fin) = true := by
  have hn : (frameOctets u (checkOctet f u) fin).length - Config.overhead = u.length := by
    rw [frameOctets_length, Nat.add_sub_cancel]
  simp only [validCk, hn, frameOctets_user, frameOctets_check, frameOctets_terminator]
  rcases he with rfl | rfl <;> simp

end Frame

/-- Settles O33: a defined `FRAME(u)` is the octets `68 L L 68 u CK END` with `CK = CKF(u)`, and their check holds. -/
theorem frameTextBuildsAWellFormedFrame : Obligations.FrameTextBuildsAWellFormedFrame := by
  refine ⟨fun p u frame h => ?_, fun p f e u hv hu he => ?_⟩
  · obtain ⟨f, e, hv, hu, he, rfl⟩ := (frameOf_eq_some_iff p u frame).mp h
    refine ⟨⟨frameShape_frameOctets u _ _ hu, ?_⟩, ?_⟩
    · rw [hv]
      exact validCk_frameOctets u p.endOctet f e he
    · rw [userData, lengthOctet_frameOctets u _ _ hu, frameOctets_user]
  · exact ⟨_, (frameOf_eq_some_iff p u _).mpr ⟨f, e, hv, hu, he, rfl⟩⟩

end Sys2Proof.Machine

/-! PROOFS of the family 40_accumulator: what `RX` does in each outcome of the detection pass (O17 to O22), what it can
never emit (O14, O25), a frame fed in chunks (O26, O27), and the check octet of the reference family (O32). -/

namespace Sys2Proof.Machine

open Sys2Proof.Spec

/-! ## The detection pass in the terms of the statements -/

section Detect

variable {p : Params} {b : Memory}

/-- The outcome is `WAIT` (R103, R106). -/
theorem detect_of_waits (h : Waits b) : detect p b = .wait := by
  rcases h with hshort | ⟨hcand, hlen, hincomplete⟩
  · exact detect_short hshort
  · rw [detect_candidate ((isCandidate_iff_candidate b).mpr hcand) ((lengthsAgree_iff_lengthsAgree hcand.1).mpr hlen)]
    exact if_neg (Nat.not_le.mpr hincomplete)

/-- The outcome is `NOCAND` (R104). -/
theorem detect_of_notCandidate (h : NotCandidate b) : detect p b = .noCand :=
  detect_noCand h.1 (Bool.eq_false_iff.mpr fun hc => h.2 ((isCandidate_iff_candidate b).mp hc))

/-- The outcome is `DROPLEN` (R105). -/
theorem detect_of_not_lengthsAgree (hcand : Candidate b) (hlen : ¬ LengthsAgree b) : detect p b = .dropLen :=
  detect_dropLen ((isCandidate_iff_candidate b).mpr hcand)
    (Bool.eq_false_iff.mpr fun hl => hlen ((lengthsAgree_iff_lengthsAgree hcand.1).mp hl))

/-- On a complete candidate frame the check decides the outcome (R107, R109, R110). -/
theorem detect_of_complete (h : Complete b) : detect p b =
    if validAccepts p.valid (b.take (totalLength b)) then .emit (b.take (totalLength b)) else .dropCheck := by
  obtain ⟨hcand, hlen, hcomplete⟩ := h
  rw [detect_candidate ((isCandidate_iff_candidate b).mpr hcand) ((lengthsAgree_iff_lengthsAgree hcand.1).mpr hlen)]
  exact if_pos hcomplete

/-- A buffer that holds no candidate waits or is no candidate (R103, R104). -/
theorem waits_or_notCandidate_of_not_candidate (h : ¬ Candidate b) : Waits b ∨ NotCandidate b := by
  by_cases hshort : b.length < 4
  · exact .inl (.inl hshort)
  · exact .inr ⟨Nat.not_lt.mp hshort, h⟩

end Detect

/-! ## `RX` by the outcome of the detection pass -/

section Rx

variable {s : State} {c : List Octet}

/-- A chunk larger than the room left is dropped with the buffer (R101, R191). -/
theorem rx_of_overflow {cap : Nat} (hcap : s.cfg.bufCap = some cap) (hlt : cap < s.buf.length + c.length) :
    rx c s = raiseDrop .overflow (s.buf.length + c.length) s.clearBuffer := by
  have ho : overflows s c = true := by
    rw [overflows, hcap]
    exact decide_eq_true hlt
  rw [rx, if_pos ho, blen_eq]

/-- A chunk that fits is appended, and the detection pass runs (R101, R113). -/
theorem rx_of_fits (hfits : Fits s c) : rx c s = rxDetect (s.iter.toNat + 1) (s.append c) := by
  have ho : overflows s c = false := by
    unfold overflows
    cases hcap : s.cfg.bufCap with
    | none => rfl
    | some cap => exact decide_eq_false (Nat.not_lt.mpr (hfits cap hcap))
  rw [rx, ho]
  rfl

/-- `WAIT` and `NOCAND` go on to the anti-runaway step (R111). -/
theorem rx_of_unfinished (hfits : Fits s c) (h : Waits (s.buf ++ c) ∨ NotCandidate (s.buf ++ c)) :
    rx c s = antiRunaway (s.iter.toNat + 1) (s.append c) := by
  rw [rx_of_fits hfits, rxDetect, append_buf]
  rcases h with h | h
  · rw [detect_of_waits h]
  · rw [detect_of_notCandidate h]

/-- Below `ITER_MAX` the buffer is kept and the iteration counted (R104, R106). -/
theorem rx_of_unfinished_below (hfits : Fits s c) (h : Waits (s.buf ++ c) ∨ NotCandidate (s.buf ++ c))
    (hk : s.iter.toNat + 1 < s.cfg.iterMax) : rx c s = { s with buf := s.buf ++ c, iter := s.iter + 1 } := by
  have hiter : BitVec.ofNat 16 (s.iter.toNat + 1) = s.iter + 1 := by simp [BitVec.ofNat_add]
  rw [rx_of_unfinished hfits h, antiRunaway, append_cfg, if_neg (Nat.not_le.mpr hk), hiter]
  rfl

/-- At `ITER_MAX` the buffer goes, with a drop unless it was empty (R111). -/
theorem rx_of_unfinished_at_bound (hfits : Fits s c) (h : Waits (s.buf ++ c) ∨ NotCandidate (s.buf ++ c))
    (hk : s.cfg.iterMax ≤ s.iter.toNat + 1) : rx c s = if s.buf ++ c = [] then s.clearBuffer else
      raiseDrop .runaway (s.buf.length + c.length) s.clearBuffer := by
  rw [rx_of_unfinished hfits h, antiRunaway, append_cfg, if_pos hk, blen_eq, append_buf, ← List.length_append]
  by_cases hempty : s.buf ++ c = []
  · rw [if_pos hempty, if_neg (by simp [hempty])]
    rfl
  · rw [if_neg hempty, if_pos (List.length_pos_iff.mpr hempty)]
    rfl

/-- Differing length octets drop buffer and chunk (R105). -/
theorem rx_of_not_lengthsAgree (hfits : Fits s c) (hcand : Candidate (s.buf ++ c)) (hlen : ¬ LengthsAgree (s.buf ++ c)) :
    rx c s = raiseDrop .lenMismatch (s.buf.length + c.length) s.clearBuffer := by
  rw [rx_of_fits hfits, rxDetect, append_buf, detect_of_not_lengthsAgree hcand hlen, ← List.length_append]
  rfl

/-- A failing check drops buffer and chunk (R110). -/
theorem rx_of_check_failure (hfits : Fits s c) (hcomplete : Complete (s.buf ++ c))
    (hinvalid : validAccepts s.cfg.valid ((s.buf ++ c).take (totalLength (s.buf ++ c))) = false) :
    rx c s = raiseDrop .checkFail (s.buf.length + c.length) s.clearBuffer := by
  rw [rx_of_fits hfits, rxDetect, append_buf, append_cfg, detect_of_complete hcomplete, hinvalid, ← List.length_append]
  rfl

/-- A valid frame is delivered, and what follows it stays (R109). -/
theorem rx_of_valid_frame {frame rest : List Octet} (hfits : Fits s c) (hcomplete : Complete (s.buf ++ c))
    (hsplit : s.buf ++ c = frame ++ rest) (hlen : frame.length = totalLength (s.buf ++ c))
    (hvalid : validAccepts s.cfg.valid frame = true) : rx c s = deliver frame { s with buf := rest, iter := 0 } := by
  have htake : (s.buf ++ c).take (totalLength (s.buf ++ c)) = frame := by rw [← hlen, hsplit, List.take_left]
  have hdrop : bufDrop (s.buf ++ c) frame.length = rest := by rw [bufDrop, hsplit, List.drop_left]
  rw [rx_of_fits hfits, rxDetect, append_buf, append_cfg, detect_of_complete hcomplete, htake, hvalid, if_pos rfl]
  simp only [hdrop]
  rfl

end Rx

/-- Settles O17, by the overflow test that comes before anything else. -/
theorem rxOverflowDiscardsBufferAndChunk : Obligations.RxOverflowDiscardsBufferAndChunk :=
  fun _ _ _ hcap hlt => congrArg Host.Outcome.next (rx_of_overflow hcap hlt)

/-- Settles O18: the detection pass answers `WAIT` or `NOCAND`, and the count stays below the bound. -/
theorem rxKeepsAnUnfinishedBuffer : Obligations.RxKeepsAnUnfinishedBuffer :=
  fun _ _ hfits h hk => congrArg Host.Outcome.next (rx_of_unfinished_below hfits h hk)

/-- Settles O19: the detection pass answers `WAIT` or `NOCAND`, and the count reaches the bound. -/
theorem rxAntiRunawayDiscards : Obligations.RxAntiRunawayDiscards :=
  fun _ _ hfits h hk => congrArg Host.Outcome.next (rx_of_unfinished_at_bound hfits h hk)

/-- Settles O20: the detection pass answers `DROPLEN`. -/
theorem rxLengthMismatchDiscards : Obligations.RxLengthMismatchDiscards :=
  fun _ _ hfits hcand hlen => congrArg Host.Outcome.next (rx_of_not_lengthsAgree hfits hcand hlen)

/-- Settles O21: the detection pass answers `DROPCHECK`. -/
theorem rxCheckFailureDiscards : Obligations.RxCheckFailureDiscards :=
  fun _ _ hfits hcomplete hinvalid => congrArg Host.Outcome.next (rx_of_check_failure hfits hcomplete hinvalid)

/-! ## The tag of a frame -/

/-- The acceptance test of the model is that of the statements (R74). -/
theorem wellFormed_iff_wellFormedFrame (p : Params) (x : List Octet) :
    wellFormed p x = true ↔ WellFormedFrame p.valid x := by
  rw [wellFormed_iff]
  constructor
  · rintro ⟨hlen6, h0, h3, h12, hlen, hvalid⟩
    obtain ⟨h4, hstart, hmarker⟩ :=
      (isCandidate_iff_candidate x).mp ((isCandidate_iff x).mpr ⟨by omega, h0, h3⟩)
    exact ⟨⟨hstart, hmarker, (lengthsAgree_iff_lengthsAgree h4).mp (beq_iff_eq.mpr h12), hlen⟩, hvalid⟩
  · rintro ⟨⟨hstart, hmarker, hagree, hlen⟩, hvalid⟩
    have hlen6 : 6 ≤ x.length := hlen ▸ Nat.le_add_left 6 _
    have h4 : 4 ≤ x.length := by omega
    obtain ⟨-, h0, h3⟩ := (isCandidate_iff x).mp ((isCandidate_iff_candidate x).mpr ⟨h4, hstart, hmarker⟩)
    exact ⟨hlen6, h0, h3, beq_iff_eq.mp ((lengthsAgree_iff_lengthsAgree h4).mpr hagree), hlen, hvalid⟩

/-- The row test of the model is that of the statements (R133). -/
theorem rowMatches_iff_rowMatches (row : ClassRow) (x : List Octet) : rowMatches row x = true ↔ RowMatches row x :=
  testsHold_iff row.tests x

/-- The classifier answers the tag the rules give (R131 to R134). -/
theorem hasTag_classify (p : Params) (x : List Octet) : HasTag p x (classify p x) := by
  by_cases hwf : wellFormed p x = true
  · have hframe := (wellFormed_iff_wellFormedFrame p x).mp hwf
    rw [classify, if_pos hwf]
    cases hfind : p.classTable.find? fun row => rowMatches row x with
    | none =>
      refine .inr (.inr ⟨hframe, fun r hr hmatch => ?_, rfl⟩)
      exact List.find?_eq_none.mp hfind r hr ((rowMatches_iff_rowMatches r x).mpr hmatch)
    | some row =>
      obtain ⟨hrow, before, after, htable, hbefore⟩ := List.find?_eq_some_iff_append.mp hfind
      refine .inr (.inl ⟨hframe, before, row, after, htable, fun r hr hmatch => ?_,
        (rowMatches_iff_rowMatches row x).mp hrow, rfl⟩)
      simpa [(rowMatches_iff_rowMatches r x).mpr hmatch] using hbefore r hr
  · exact .inl ⟨fun h => hwf ((wellFormed_iff_wellFormedFrame p x).mpr h), if_neg hwf⟩

/-- A tag the rules give is the classifier's answer, so there is one only (R131 to R134). -/
theorem classify_eq_of_hasTag {p : Params} {x : List Octet} {t : Tag} (h : HasTag p x t) : classify p x = t := by
  have hno {r : ClassRow} (hr : ¬ RowMatches r x) : ¬ rowMatches r x = true :=
    fun hm => hr ((rowMatches_iff_rowMatches r x).mp hm)
  rcases h with ⟨hbad, rfl⟩ | ⟨hframe, before, row, after, htable, hbefore, hrow, rfl⟩ | ⟨hframe, hrows, rfl⟩
  · exact if_neg fun hwf => hbad ((wellFormed_iff_wellFormedFrame p x).mp hwf)
  · have hfind : p.classTable.find? (fun row => rowMatches row x) = some row :=
      List.find?_eq_some_iff_append.mpr ⟨(rowMatches_iff_rowMatches row x).mpr hrow, before, after, htable,
        fun r hr => by simpa using hno (hbefore r hr)⟩
    rw [classify, if_pos ((wellFormed_iff_wellFormedFrame p x).mpr hframe), hfind]
  · have hfind : p.classTable.find? (fun row => rowMatches row x) = none :=
      List.find?_eq_none.mpr fun r hr => hno (hrows r hr)
    rw [classify, if_pos ((wellFormed_iff_wellFormedFrame p x).mpr hframe), hfind]

/-! ## The delivery of a frame -/

/-- The octets of a row, as the statements cut them (R140). -/
theorem groupSlice_eq_rowOctets (row : GroupRow) (u : List Octet) : groupSlice row u = rowOctets row u := by
  rw [groupSlice, rowOctets, ← List.take_eq_take_min, List.drop_take, Nat.add_sub_cancel_left]

/-- The passes of `Deliver` are `DIFF` operations (R139). -/
theorem runPasses_eq_passes (u : List Octet) (rows : List GroupRow) (s : State) :
    runPasses u rows s = .next (passes u rows s) := by
  induction rows generalizing s with
  | nil => rfl
  | cons row rows ih =>
    have hrow : exec (.diff row.group (rowOctets row u)) s = .next (deliverRow u s row) := by
      rw [deliverRow, groupSlice_eq_rowOctets]
      rfl
    rw [runPasses, hrow]
    exact ih (deliverRow u s row)

/-- Settles O22: the frame is delivered on the state without it, and the passes of its tag's rows are `DIFF`s. -/
theorem rxEmitsAndDelivers : Obligations.RxEmitsAndDelivers := by
  intro s c frame rest tag hfits hcomplete hsplit hlen hvalid htag
  refine ⟨_, runPasses_eq_passes _ _ _, congrArg Host.Outcome.next ?_⟩
  rw [rx_of_valid_frame hfits hcomplete hsplit hlen hvalid, deliver_eq, classify_eq_of_hasTag htag]
  rfl

/-! ## The records of `RX` -/

/-- An `RX` ends the gathering of at most one frame (R100). -/
theorem countP_endsFrame_rx_le (c : List Octet) (s : State) : (newRecords s (rx c s)).countP endsFrame ≤ 1 := by
  rcases rx_records_cases c s with ⟨_, _, -, hr⟩ | ⟨_, _, -, hr⟩ | ⟨_, _, _, recs, -, -, hr, hrecs⟩ <;> rw [hr]
  · exact List.countP_le_length
  · exact Nat.zero_le 1
  · have hzero : recs.countP endsFrame = 0 := List.countP_eq_zero.mpr fun e he => by simp [hrecs e he]
    rw [List.countP_cons, hzero]
    exact Nat.le_refl 1

/-- A step that is no `RX` emits no record that ends a frame (R100, R190). -/
theorem endsFrame_of_step {s t : State} (hrx : ∀ c rest, decode s.input ≠ .instr (.rx c) rest) (h : step s = .next t) :
    ∀ e ∈ newRecords s t, endsFrame e = false := by
  rcases step_cases h with ⟨-, rfl⟩ | ⟨code, word, rest, -, rfl⟩ | ⟨i, rest, hd, he⟩
  · simp [newRecords]
  · have hr : newRecords s (raiseErr code word { s with input := rest }) = [.err code word] := newRecords_eq rfl
    simp [hr, endsFrame]
  · exact endsFrame_of_exec (s := { s with input := rest }) (fun c hi => hrx c rest (hi ▸ hd)) he

/-- Settles O14, by whether the step executes an `RX`. -/
theorem onlyRxEndsAFrame : Obligations.OnlyRxEndsAFrame := by
  intro s t h
  by_cases hrx : ∃ c rest, decode s.input = .instr (.rx c) rest
  · obtain ⟨c, rest, hd⟩ := hrx
    rw [← next_inj ((step_of_decode_instr hd).symm.trans h)]
    exact ⟨countP_endsFrame_rx_le c { s with input := rest }, fun _ => ⟨c, rest, hd⟩⟩
  · have hno := endsFrame_of_step (fun c rest hd => hrx ⟨c, rest, hd⟩) h
    have hzero : (newRecords s t).countP endsFrame = 0 := List.countP_eq_zero.mpr fun e he => by simp [hno e he]
    rw [hzero]
    exact ⟨Nat.zero_le 1, fun hpos => absurd hpos (Nat.lt_irrefl 0)⟩

/-- Behind an octet at index 0 that is no marker the detection pass emits no frame (R104). -/
theorem detect_ne_emit_of_not_candidate {p : Params} {b : Memory} (h : ¬ Candidate b) (frame : List Octet) :
    detect p b ≠ .emit frame := by
  rcases waits_or_notCandidate_of_not_candidate h with h | h
  · rw [detect_of_waits h]; nofun
  · rw [detect_of_notCandidate h]; nofun

/-- Settles O25: buffer and chunk are no candidate, so of all `RX` can do a delivery is excluded. -/
theorem noTelegramBehindAStrayOctet : Obligations.NoTelegramBehindAStrayOctet := by
  intro s t c o hhead hstray hexec
  have hcand : ¬ Candidate (s.buf ++ c) := by
    rintro ⟨-, hstart, -⟩
    obtain ⟨os, hbuf⟩ := List.head?_eq_some_iff.mp hhead
    rw [hbuf] at hstart
    exact hstray hstart
  rw [← next_inj hexec]
  rcases rx_cases c s with ⟨reason, n, h⟩ | ⟨-, -, h⟩ | ⟨-, -, h⟩ | ⟨-, frame, hemit, -⟩
  · have hr : newRecords s (rx c s) = [.drop reason n] := newRecords_eq (by rw [h]; rfl)
    exact ⟨by simp [hr], .inr (by rw [h]; rfl)⟩
  · have hr : newRecords s (rx c s) = [] := newRecords_eq (by simp [h])
    exact ⟨by simp [hr], .inr (by rw [h]; rfl)⟩
  · have hr : newRecords s (rx c s) = [] := newRecords_eq (by simp [h])
    exact ⟨by simp [hr], .inl (by rw [h])⟩
  · exact absurd hemit (detect_ne_emit_of_not_candidate hcand frame)

/-! ## A frame fed in chunks -/

/-- A proper head of the octets of a frame is waited on (R103, R106). -/
theorem waits_of_frameShape_append {b rest : List Octet} (hshape : FrameShape (b ++ rest)) (hrest : rest ≠ []) :
    Waits b := by
  by_cases hshort : b.length < 4
  · exact .inl hshort
  · have hget (i : Nat) (hi : i < 4) : (b ++ rest).getD i 0 = b.getD i 0 := List.getD_append b rest 0 i (by omega)
    obtain ⟨hstart, hmarker, hagree, hlen⟩ := hshape
    rw [totalLength, hget 1 (by decide), List.length_append] at hlen
    rw [hget 0 (by decide)] at hstart
    rw [hget 3 (by decide)] at hmarker
    rw [hget 1 (by decide), hget 2 (by decide)] at hagree
    have hpos := List.length_pos_iff.mpr hrest
    exact .inr ⟨⟨Nat.not_lt.mp hshort, hstart, hmarker⟩, hagree, by rw [totalLength]; omega⟩

/-- The octets of a frame are a complete candidate frame (R70, R106). -/
theorem complete_of_frameShape {frame : List Octet} (hshape : FrameShape frame) : Complete frame := by
  obtain ⟨hstart, hmarker, hagree, hlen⟩ := hshape
  exact ⟨⟨by rw [hlen, totalLength]; omega, hstart, hmarker⟩, hagree, Nat.le_of_eq hlen.symm⟩

/-- A frame has at most 261 octets (R71). -/
theorem length_le_of_frameShape {frame : List Octet} (hshape : FrameShape frame) : frame.length ≤ 261 := by
  have := (frame.getD 1 0).isLt
  rw [hshape.2.2.2, totalLength]
  omega

/-- Buffer and chunk that are no longer than a frame fit every legal `BUF_CAP` (R5, R101). -/
theorem fits_of_length_le {s : State} {c : List Octet} (h : (s.buf ++ c).length ≤ 261) : Fits s c :=
  fun _ hcap => (List.length_append ▸ h).trans (s.cfg.bufCap_ge hcap)

/-- Chunks fed one after another (R115). -/
theorem feed_append {s t : State} {cs : List (List Octet)} (h : feed cs s = .next t) (ds : List (List Octet)) :
    feed (cs ++ ds) s = feed ds t := by
  induction cs generalizing s with
  | nil => rw [← next_inj h]; rfl
  | cons c cs ih => exact ih (s := rx c s) h

/-- One chunk fed is one `RX` (R115). -/
theorem feed_singleton (c : List Octet) (s : State) : feed [c] s = .next (rx c s) := rfl

/-- `s` with the chunks gathered behind its buffer, each one iteration of the count (R106). -/
def State.gathering (s : State) (cs : List (List Octet)) : State :=
  { s with buf := s.buf ++ cs.flatten, iter := s.iter + BitVec.ofNat 16 cs.length }

/-- Gathering a chunk and then others is gathering them all. -/
theorem gathering_cons (s : State) (c : List Octet) (cs : List (List Octet)) :
    State.gathering { s with buf := s.buf ++ c, iter := s.iter + 1 } cs = s.gathering (c :: cs) := by
  have hiter : s.iter + 1 + BitVec.ofNat 16 cs.length = s.iter + BitVec.ofNat 16 (cs.length + 1) := by
    rw [BitVec.add_assoc, Nat.add_comm, BitVec.ofNat_add]
    rfl
  simp only [State.gathering, List.append_assoc, hiter, List.flatten_cons, List.length_cons]

/-- While octets of the frame are to come, chunks are gathered and nothing else happens (R103, R106, R115). -/
theorem feed_eq_gathering {s : State} {cs : List (List Octet)} {rest : List Octet} (hrest : rest ≠ [])
    (hshape : FrameShape (s.buf ++ (cs.flatten ++ rest))) (hbound : s.iter.toNat + cs.length < s.cfg.iterMax) :
    feed cs s = .next (s.gathering cs) := by
  induction cs generalizing s with
  | nil => simp [feed, State.gathering]
  | cons c cs ih =>
    rw [List.flatten_cons, List.append_assoc, ← List.append_assoc s.buf] at hshape
    rw [List.length_cons] at hbound
    have hwaits : Waits (s.buf ++ c) := waits_of_frameShape_append hshape (by simp [hrest])
    have hlen : (s.buf ++ c).length ≤ 261 :=
      (List.length_append ▸ Nat.le_add_right _ _).trans (length_le_of_frameShape hshape)
    have hstep := rx_of_unfinished_below (fits_of_length_le hlen) (.inl hwaits) (by omega)
    have hiter : (s.iter + 1).toNat = s.iter.toNat + 1 := by
      have := s.cfg.iterMax_range.2
      rw [BitVec.toNat_add]
      exact Nat.mod_eq_of_lt (by simp; omega)
    have hnext := ih (s := { s with buf := s.buf ++ c, iter := s.iter + 1 }) hshape (by simp only [hiter]; omega)
    calc feed cs (rx c s)
      _ = feed cs { s with buf := s.buf ++ c, iter := s.iter + 1 } := congrArg (feed cs) hstep
      _ = .next (s.gathering (c :: cs)) := by rw [hnext, gathering_cons]

/-- The octets of a frame come in `chunks` and a last chunk that is not empty, into an empty buffer, and the iterations
stay within the bound (R115, R116). -/
structure FrameInChunks (s : State) (frame : List Octet) (chunks : List (List Octet)) (last : List Octet) : Prop where
  shape : FrameShape frame
  octets : (chunks ++ [last]).flatten = frame
  lastNotEmpty : last ≠ []
  bufferEmpty : s.buf = []
  withinBound : s.iter.toNat + (chunks.length + 1) ≤ s.cfg.iterMax

namespace FrameInChunks

variable {s : State} {frame last : List Octet} {chunks : List (List Octet)} (h : FrameInChunks s frame chunks last)

include h

/-- Before the last chunk nothing happens but gathering (R115). -/
theorem feed_take (k : Nat) : feed (chunks.take k) s = .next (s.gathering (chunks.take k)) := by
  have hsplit : (chunks.take k).flatten ++ ((chunks.drop k).flatten ++ last) = frame := by
    rw [← h.octets, ← List.append_assoc, ← List.flatten_append, List.take_append_drop]
    simp
  refine feed_eq_gathering (rest := (chunks.drop k).flatten ++ last) (by simp [h.lastNotEmpty]) ?_ ?_
  · rw [h.bufferEmpty, List.nil_append, hsplit]
    exact h.shape
  · have hlen := List.length_take_le' k chunks
    have hbound := h.withinBound
    omega

/-- Before the last chunk the buffer and the counter alone are written (R115). -/
theorem feed_take_eq (k : Nat) (hk : k ≤ chunks.length) : feed (chunks.take k) s =
    .next { s with buf := (chunks.take k).flatten, iter := s.iter + BitVec.ofNat 16 k } := by
  rw [h.feed_take, State.gathering, h.bufferEmpty, List.nil_append, List.length_take_of_le hk]

/-- All the chunks are one `RX` of the last on the state that gathered the others (R115). -/
theorem feed_eq : feed (chunks ++ [last]) s = .next (rx last (s.gathering chunks)) := by
  have hfeed := h.feed_take chunks.length
  rw [List.take_length] at hfeed
  rw [feed_append hfeed, feed_singleton]

/-- The last chunk completes the frame in the buffer (R115). -/
theorem gathered : (s.gathering chunks).buf ++ last = frame := by
  rw [← h.octets, State.gathering, h.bufferEmpty]
  simp

/-- The last chunk fits (R5, R101). -/
theorem fits : Fits (s.gathering chunks) last :=
  fits_of_length_le (h.gathered ▸ length_le_of_frameShape h.shape)

/-- With the last chunk the buffer holds a complete candidate frame (R106). -/
theorem complete : Complete ((s.gathering chunks).buf ++ last) := h.gathered ▸ complete_of_frameShape h.shape

/-- The complete candidate frame is all the buffer holds. -/
theorem length_eq : frame.length = totalLength ((s.gathering chunks).buf ++ last) := h.gathered ▸ h.shape.2.2.2

end FrameInChunks

/-- An empty chunk into an empty buffer with the counter at 0 is one iteration, which `ITER_MAX = 1` takes back
(R111, R115). -/
theorem rx_nil_of_empty {t : State} (hbuf : t.buf = []) (hiter : t.iter = 0) :
    rx [] t = { t with iter := if 1 < t.cfg.iterMax then 1 else 0 } := by
  have hfits : Fits t [] := fits_of_length_le (by simp [hbuf])
  have hwaits : Waits (t.buf ++ []) ∨ NotCandidate (t.buf ++ []) := .inl (.inl (by simp [hbuf]))
  by_cases hmax : 1 < t.cfg.iterMax
  · rw [rx_of_unfinished_below hfits hwaits (by simpa [hiter] using hmax), if_pos hmax, hiter, List.append_nil]
    rfl
  · rw [rx_of_unfinished_at_bound hfits hwaits (by simpa [hiter] using Nat.not_lt.mp hmax), if_neg hmax,
      if_pos (by simp [hbuf]), State.clearBuffer, hbuf]

/-- Settles O26: the chunks before the last are gathered, the last completes the frame, which is delivered. -/
theorem chunkingDoesNotAffectTheTelegram : Obligations.ChunkingDoesNotAffectTheTelegram := by
  intro s frame last chunks ⟨hshape, hvalid⟩ hflat hlast hbuf hbound
  have h : FrameInChunks s frame chunks last := ⟨hshape, hflat, hlast, hbuf, hbound⟩
  have hrx : rx last (s.gathering chunks) = deliver frame { s with buf := [], iter := 0 } :=
    rx_of_valid_frame h.fits h.complete (h.gathered.trans (List.append_nil frame).symm) h.length_eq hvalid
  obtain ⟨recs, hevents, hrecs⟩ := deliver_events frame { s with buf := [], iter := 0 }
  refine ⟨h.feed_take_eq, deliver frame { s with buf := [], iter := 0 }, _, recs, hrx ▸ h.feed_eq, deliver_buf _ _,
    deliver_iter _ _, hasTag_classify s.cfg.toParams frame, hevents, fun e he => ?_, congrArg Host.Outcome.next ?_⟩
  · obtain ⟨_, _, -, hpass⟩ := hrecs e he
    exact endsFrame_of_mem_passRecords hpass
  · rw [rx_nil_of_empty (deliver_buf _ _) (deliver_iter _ _), deliver_cfg]

/-- Settles O27: the chunks before the last are gathered, the last completes the frame, whose check fails. -/
theorem corruptedCheckIsDroppedOnce : Obligations.CorruptedCheckIsDroppedOnce := by
  intro s frame last chunks hshape hinvalid hflat hlast hbuf hbound
  have h : FrameInChunks s frame chunks last := ⟨hshape, hflat, hlast, hbuf, hbound⟩
  have htake : ((s.gathering chunks).buf ++ last).take (totalLength ((s.gathering chunks).buf ++ last)) = frame := by
    rw [← h.length_eq, h.gathered, List.take_length]
  refine ⟨h.feed_take_eq, ?_⟩
  rw [h.feed_eq, rx_of_check_failure h.fits h.complete (htake ▸ hinvalid), ← List.length_append, h.gathered]
  rfl

/-! ## The check octet -/

/-- A frame that `VALID_CK(CKF, e)` accepts has the check octet of its user data (R107, R108). -/
theorem eq_checkOctet_of_validCk {f : CheckFn} {e : Option Octet} {header u : List Octet} {ck fin : Octet}
    (hheader : header.length = 4) (h : validCk f e (header ++ u ++ [ck, fin]) = true) : ck = checkOctet f u := by
  have hlen : (header ++ u ++ [ck, fin]).length - Config.overhead = u.length := by
    simp only [List.length_append, hheader, Config.overhead, List.length_cons, List.length_nil]
    omega
  have huser : ((header ++ u ++ [ck, fin]).drop 4).take u.length = u := by
    rw [← hheader, List.append_assoc, List.drop_left, List.take_left]
  have hcheck : (header ++ u ++ [ck, fin])[4 + u.length]? = some ck := by
    rw [← hheader, ← List.length_append, List.getElem?_append_right (Nat.le_refl _), Nat.sub_self]
    rfl
  simp only [validCk, hlen, huser, hcheck, Bool.and_eq_true, beq_iff_eq, Option.some.injEq] at h
  exact h.1

/-- Settles O32: both check octets are the one of the user data. -/
theorem checkOctetIsUnique : Obligations.CheckOctetIsUnique :=
  fun _ _ _ _ _ _ _ hheader h h' => (eq_checkOctet_of_validCk hheader h).trans (eq_checkOctet_of_validCk hheader h').symm

end Sys2Proof.Machine

/-! PROOFS of the family 41_classifier: every sequence has one tag, which `CLS` reports (O28), with the hint (O29) and the
destination (O30) of each tag; a Telegram is a well-formed frame with its own tag (O31); the frame of the operations that
store nothing in the buffer (O43). -/

namespace Sys2Proof.Machine

open Sys2Proof.Spec

/-! ## The tag of a sequence -/

/-- The tag is a function of the sequence, `VALID` and `CLASS_TABLE` alone (R131). -/
theorem classify_congr {p q : Params} (hvalid : p.valid = q.valid) (htable : p.classTable = q.classTable)
    (x : List Octet) : classify p x = classify q x := by
  unfold classify wellFormed
  rw [hvalid, htable]

/-- Settles O28: the one tag is the classifier's answer. -/
theorem clsReportsTheOneTag : Obligations.ClsReportsTheOneTag := by
  intro p x
  refine ⟨classify p x, hasTag_classify p x, fun other h => (classify_eq_of_hasTag h).symm, fun s hvalid htable => ?_⟩
  rw [← classify_congr hvalid htable x]
  rfl

/-- Settles O29, tag by tag. -/
theorem gateHintOfEachTag : Obligations.GateHintOfEachTag := by
  intro t
  cases t <;> decide

/-- Settles O30, tag by tag. -/
theorem destinationOfEachTag : Obligations.DestinationOfEachTag := by
  intro t
  cases t <;> decide

/-! ## Telegrams -/

/-- A Telegram of an `RX` is the frame the detection pass emitted, with what the classifier says of it (R109, R136, R139). -/
theorem telegram_of_mem_rx {s : State} {c raw : List Octet} {tag : Tag} {hint : Hint} {dest : Dest}
    (hmem : .tg tag hint dest raw ∈ newRecords s (rx c s)) :
    wellFormed s.cfg.toParams raw = true ∧ tag = classify s.cfg.toParams raw ∧ hint = hintOf tag ∧ dest = destOf tag := by
  rcases rx_cases c s with ⟨reason, n, h⟩ | ⟨-, -, h⟩ | ⟨-, -, h⟩ | ⟨-, frame, hemit, h⟩ <;> rw [h] at hmem
  · simp [newRecords] at hmem
  · simp [newRecords] at hmem
  · simp [newRecords] at hmem
  · obtain ⟨recs, hevents, hrecs⟩ := deliver_events frame { s with buf := (s.buf ++ c).drop frame.length, iter := 0 }
    rw [newRecords_eq (s := s) hevents] at hmem
    have hends : ∀ e ∈ recs, endsFrame e = false := fun e he => by
      obtain ⟨_, _, -, hpass⟩ := hrecs e he
      exact endsFrame_of_mem_passRecords hpass
    cases eq_first_of_endsFrame hends hmem rfl
    exact ⟨(detect_emit hemit).1, rfl, rfl, rfl⟩

/-- Settles O31: only an `RX` emits a Telegram, and the table of a legal parameter set never gives `Invalid`. -/
theorem everyTelegramIsWellFormed : Obligations.EveryTelegramIsWellFormed := by
  intro s t tag hint dest raw h hmem
  by_cases hrx : ∃ c rest, decode s.input = .instr (.rx c) rest
  · obtain ⟨c, rest, hd⟩ := hrx
    rw [← next_inj ((step_of_decode_instr hd).symm.trans h)] at hmem
    obtain ⟨hwf, htag, hhint, hdest⟩ := telegram_of_mem_rx (s := { s with input := rest }) hmem
    exact ⟨(wellFormed_iff_wellFormedFrame _ raw).mp hwf, htag ▸ hasTag_classify _ raw,
      htag ▸ classify_ne_invalid s.cfg hwf, hhint, hdest⟩
  · cases endsFrame_of_step (fun c rest hd => hrx ⟨c, rest, hd⟩) h _ hmem

/-! ## The operations that store nothing in the buffer -/

/-- A register that `RDS` may read has a value (R29, R182). -/
theorem statusReg_of_mem_legalRegs {r : BitVec 4} (h : r ∈ legalRegs) (s : State) : ∃ v, statusReg s r = some v := by
  unfold legalRegs at h
  fin_cases h <;> exact ⟨_, rfl⟩

/-- ALL THAT `CLS`, `DIFF`, `SETREF` AND `RDS` CAN DO: emit one record, run a comparator pass, set `REFRESH`, or refuse a
reserved register (R130, R150, R151, R182). -/
theorem exec_cases_of_no_store {i : Instr} {s t : State} (hrx : ∀ c, i ≠ .rx c) (hreset : i ≠ .reset)
    (h : exec i s = .next t) :
    (∃ e, t = s.emit e) ∨ (∃ g n, i = .diff g n ∧ t = diffPass g n s) ∨
    (i = .setref ∧ t = { s with refresh := true }) ∨
    (∃ r, r ∉ legalRegs ∧ i = .rds r ∧ t = raiseErr .badOperand (commandWord (.rds r)) s) := by
  cases i with
  | rx c => exact absurd rfl (hrx c)
  | cls x => exact .inl ⟨_, (next_inj h).symm⟩
  | diff g n => exact .inr (.inl ⟨g, n, rfl, (next_inj h).symm⟩)
  | setref => exact .inr (.inr (.inl ⟨rfl, (next_inj h).symm⟩))
  | rds r =>
    by_cases hr : r ∈ legalRegs
    · obtain ⟨v, hv⟩ := statusReg_of_mem_legalRegs hr s
      rw [exec, execRds, hv] at h
      exact .inl ⟨_, (next_inj h).symm⟩
    · exact .inr (.inr (.inr ⟨r, hr, rfl, (next_inj ((exec_rds_reserved hr s).symm.trans h)).symm⟩))
  | reset => exact absurd rfl hreset

/-- Settles O43, by all that these operations can do. -/
theorem frameOfTheOperationsThatStoreNothing : Obligations.FrameOfTheOperationsThatStoreNothing := by
  intro i s t hrx hreset h
  obtain ⟨hcfg, hinput⟩ := exec_outside h
  have hevents := events_eq_append_newRecords (exec_events h)
  rcases exec_cases_of_no_store hrx hreset h with ⟨e, rfl⟩ | ⟨g, n, rfl, rfl⟩ | ⟨rfl, rfl⟩ | ⟨r, hr, rfl, rfl⟩
  · exact ⟨fun _ => rfl, rfl, rfl, rfl, hcfg, hinput, hevents, fun g _ => emit_prev s g e, fun _ => rfl, fun _ => rfl⟩
  · refine ⟨fun a => by rw [diffPass_buf], diffPass_iter g n s, diffPass_lastTag g n s, diffPass_lastDrop g n s, hcfg,
      hinput, hevents, fun g' hg => ?_, fun _ => diffPass_refresh g n s, fun _ => diffPass_lastErr g n s⟩
    rw [diffPass_prev, if_neg fun hgg => hg n (by rw [hgg])]
  · exact ⟨fun _ => rfl, rfl, rfl, rfl, hcfg, hinput, hevents, fun g _ => congrFun (prev_congr rfl rfl rfl rfl) g,
      fun hno => absurd rfl hno, fun _ => rfl⟩
  · exact ⟨fun _ => rfl, rfl, rfl, rfl, hcfg, hinput, hevents, fun g _ => raiseErr_prev s g _ _, fun _ => rfl,
      fun hno => absurd rfl (hno r hr)⟩

end Sys2Proof.Machine

/-! PROOFS of the family 42_bitdiff: the bit order of a snapshot (O34); the records of a comparator pass, for the bit groups
(O35), for `SB` (O36), after a length change (O37), on equal octets (O38) and after one changed bit (O39); the range of the
event addresses (O40); `SETREF` (O41). -/

namespace Sys2Proof.Machine

open Sys2Proof.Spec

/-! ## Snapshots and their bits -/

/-- Bit j of octet k has index `8k + j` (R153). -/
theorem bitOf_eight_mul_add (n : List Octet) (k : Nat) {j : Nat} (hj : j < 8) :
    bitOf n (8 * k + j) = (n.getD k 0).getLsbD j := by
  rw [bitOf, show (8 * k + j) / 8 = k by omega, show (8 * k + j) % 8 = j by omega]

/-- Octets differ where one of their eight bits does (R153, R155). -/
theorem getD_octet_ne_iff (m n : List Octet) (k : Nat) :
    m.getD k 0 ≠ n.getD k 0 ↔ ∃ j < 8, bitOf m (8 * k + j) ≠ bitOf n (8 * k + j) := by
  constructor
  · intro hne
    by_contra! heq
    refine hne (BitVec.eq_of_getLsbD_eq fun j hj => ?_)
    rw [← bitOf_eight_mul_add m k hj, ← bitOf_eight_mul_add n k hj, heq j hj]
  · rintro ⟨j, hj, hne⟩ heq
    rw [bitOf_eight_mul_add m k hj, bitOf_eight_mul_add n k hj, heq] at hne
    exact hne rfl

/-- A bit below the length of the snapshot, read from it (R153). -/
theorem snapshot_getElem?_of_lt {n : List Octet} {i : Nat} (h : i < 8 * n.length) :
    (snapshot n)[i]? = some (bitOf n i) := by
  have hk : i / 8 < n.length := by omega
  rw [snapshot_getElem?, List.getElem?_eq_getElem hk, Option.map_some, bitOf, List.getD_eq_getElem _ _ hk]

/-- A snapshot read with zeros above it (R153). -/
theorem snapshot_getD (n : List Octet) (i : Nat) : (snapshot n).getD i false = bitOf n i := by
  rw [List.getD_eq_getElem?_getD, snapshot_getElem?, bitOf, List.getD_eq_getElem?_getD]
  cases n[i / 8]? <;> simp

/-- The machine's snapshot is the one of the statements (R153). -/
theorem snapshot_eq_bitsOf (n : List Octet) : snapshot n = bitsOf n := by
  refine List.ext_getElem? fun i => ?_
  by_cases h : i < 8 * n.length
  · rw [snapshot_getElem?_of_lt h, bitsOf, List.getElem?_map, List.getElem?_range h, Option.map_some]
  · rw [List.getElem?_eq_none (by simpa using h), List.getElem?_eq_none (by simpa [bitsOf] using h)]

/-- Bit `7 - j` of a reversed octet is bit j of the octet (R7). -/
theorem rev8_getLsbD (o : Octet) {j : Nat} (hj : j < 8) : (rev8 o).getLsbD (7 - j) = o.getLsbD j := by
  rw [rev8, BitVec.getLsbD_reverse, BitVec.getMsbD_eq_getLsbD, show 8 - 1 - (7 - j) = j by omega]
  simp [show 7 - j < 8 by omega]

/-- An octet reversed and read most significant bit first gives its bits, bit 0 first (R153). -/
theorem bits_of_rev8 (o : Octet) : ((List.range 8).map fun j => (rev8 o).getLsbD (7 - j)) = octetBits o :=
  List.map_congr_left fun _ hj => rev8_getLsbD o (List.mem_range.mp hj)

/-- The document's two steps give the snapshot (R153). -/
theorem snapshotTwoStep_eq_snapshot (n : List Octet) : snapshotTwoStep n = snapshot n := by
  simp only [snapshotTwoStep, snapshot, List.flatMap_map, bits_of_rev8]

/-- Settles O34, index by index, and octet by octet for the two steps. -/
theorem snapshotBitOrder : Obligations.SnapshotBitOrder :=
  fun n => ⟨snapshot_eq_bitsOf n, snapshotTwoStep_eq_snapshot n, snapshot_length n⟩

/-! ## The records of a pass -/

/-- `DIFF` appends the records of its pass and replaces its register (R150, R160). -/
theorem exec_diff (g : Group) (n : List Octet) (s : State) :
    exec (.diff g n) s = .next ((s.emitAll (passRecords s g n)).setPrev g (bitsOf n)) := by
  rw [← snapshot_eq_bitsOf, ← diffPass_eq]
  rfl

/-- A full pass, by the number of octets: a refresh or a length change (R154, R155). -/
theorem fullRefresh_snapshot (s : State) (g : Group) (n : List Octet) :
    fullRefresh s g (snapshot n) = (s.refresh || 8 * n.length != (s.prev g).length) := by
  rw [fullRefresh, snapshot_length]

/-- The elements that pass a test, each turned into a record. -/
theorem filterMap_if_some {α β : Type} (p : α → Bool) (f : α → β) (l : List α) :
    (l.filterMap fun a => if p a then some (f a) else none) = (l.filter p).map f := by
  rw [← List.filterMap_filter, ← List.filterMap_eq_map']

/-- The records of a bitwise pass, by the indices that are refreshed or changed (R154). -/
theorem passRecords_bitGroup {g : Group} (hg : g ≠ .sb) (s : State) (n : List Octet) :
    passRecords s g n = ((List.range (8 * n.length)).filter fun i =>
      fullRefresh s g (snapshot n) || (snapshot n)[i]? != (s.prev g)[i]?).map fun i =>
        .ae g (at16 (s.cfg.base g) i) (bitOf n i) := by
  have h : passRecords s g n =
      bitRecords (s.cfg.base g) g (fullRefresh s g (snapshot n)) (s.prev g) (snapshot n) := by
    cases g with
    | sb => exact absurd rfl hg
    | mp | mb | mbd => rfl
  simp only [h, bitRecords, filterMap_if_some, snapshot_length, snapshot_getD]
  rfl

/-- The records of the bytewise pass, by the octets that are refreshed or changed (R155). -/
theorem passRecords_sb (s : State) (n : List Octet) :
    passRecords s .sb n = ((List.range n.length).filter fun k => fullRefresh s .sb (snapshot n) ||
      ((snapshot n).drop (8 * k)).take 8 != ((s.prev .sb).drop (8 * k)).take 8).map fun k =>
        .sbe (at16 (s.cfg.base .sb) k) (n.getD k 0) := by
  simp only [passRecords, byteRecords, filterMap_if_some, recordBits_snapshot]
  rfl

/-- An index of a bitwise pass is emitted on a refresh, on a length change, or when its bit differs (R154). -/
theorem emitsIndex_eq {s : State} {g : Group} {n : List Octet} {i : Nat} (hi : i < 8 * n.length) :
    (fullRefresh s g (snapshot n) || (snapshot n)[i]? != (s.prev g)[i]?) =
      (s.refresh || 8 * n.length != (s.prev g).length || bitOf n i != (s.prev g).getD i false) := by
  rw [fullRefresh_snapshot, snapshot_getElem?_of_lt hi]
  by_cases hl : 8 * n.length = (s.prev g).length
  · rw [List.getElem?_eq_getElem (hl ▸ hi), List.getD_eq_getElem _ _ (hl ▸ hi)]
    rfl
  · simp [bne_iff_ne.mpr hl]

/-- The eight bits of octet k of a snapshot (R155). -/
theorem snapshot_record_of_lt {n : List Octet} {k : Nat} (hk : k < n.length) :
    ((snapshot n).drop (8 * k)).take 8 = octetBits (n.getD k 0) := by
  rw [snapshot_record, List.getElem?_eq_getElem hk, List.getD_eq_getElem _ _ hk]
  rfl

/-- An octet of the bytewise pass is emitted on a refresh, on a length change, or when it differs (R155). -/
theorem emitsOctet_eq {s : State} {old n : List Octet} {k : Nat} (hold : s.prev .sb = snapshot old)
    (hk : k < n.length) :
    (fullRefresh s .sb (snapshot n) || ((snapshot n).drop (8 * k)).take 8 != ((s.prev .sb).drop (8 * k)).take 8) =
      (s.refresh || n.length != old.length || n.getD k 0 != old.getD k 0) := by
  rw [fullRefresh_snapshot, hold, snapshot_length]
  by_cases hl : n.length = old.length
  · have hbits : (octetBits (n.getD k 0) != octetBits (old.getD k 0)) = (n.getD k 0 != old.getD k 0) := by
      rw [Bool.eq_iff_iff, bne_iff_ne, bne_iff_ne]
      exact Function.Injective.ne_iff fun _ _ => octetBits_injective
    rw [snapshot_record_of_lt hk, snapshot_record_of_lt (hl ▸ hk), hbits, hl]
    simp
  · have hlen : 8 * n.length ≠ 8 * old.length := by omega
    simp [bne_iff_ne.mpr hl, bne_iff_ne.mpr hlen]

/-- Settles O35: the bitwise pass emits the indices refreshed or changed. -/
theorem diffBitsEmitsTheChanges : Obligations.DiffBitsEmitsTheChanges := by
  rintro s g n _ hg rfl
  rw [exec_diff, passRecords_bitGroup hg, List.filter_congr fun i hi => emitsIndex_eq (List.mem_range.mp hi)]
  rfl

/-- Settles O36: the bytewise pass emits the octets refreshed or changed. -/
theorem diffSbEmitsWholeRecords : Obligations.DiffSbEmitsWholeRecords := by
  rintro s old n _ hold rfl
  rw [← snapshot_eq_bitsOf] at hold
  rw [exec_diff, passRecords_sb, List.filter_congr fun k hk => emitsOctet_eq hold (List.mem_range.mp hk)]
  rfl

/-- A full pass emits every index, or every octet for `SB` (R157). -/
theorem passRecords_of_fullRefresh {s : State} {g : Group} {n : List Octet}
    (hfull : fullRefresh s g (snapshot n) = true) :
    passRecords s g n = (if g = .sb then
      (List.range n.length).map fun k => .sbe (at16 (s.cfg.base .sb) k) (n.getD k 0)
    else (List.range (8 * n.length)).map fun i => .ae g (at16 (s.cfg.base g) i) (bitOf n i)) := by
  by_cases hg : g = .sb
  · subst hg
    simp [passRecords_sb, hfull]
  · simp [passRecords_bitGroup hg, hfull, hg]

/-- Settles O37: a length change makes the pass a full one. -/
theorem lengthChangeIsAFullRefresh : Obligations.LengthChangeIsAFullRefresh := by
  intro s t g n hlen h
  have hfull : fullRefresh s g (snapshot n) = true := by simp [fullRefresh_snapshot, hlen]
  rw [← next_inj ((exec_diff g n s).symm.trans h)]
  refine ⟨setPrev_prev_self _ g _, ?_⟩
  rw [newRecords_eq (setPrev_events _ g _), passRecords_of_fullRefresh hfull]

/-- A pass on the octets held emits nothing, without a refresh request (R163 (a)). -/
theorem passRecords_of_prev_eq {s : State} {g : Group} {n : List Octet} (hrefresh : s.refresh = false)
    (hprev : s.prev g = snapshot n) : passRecords s g n = [] := by
  have hfull : fullRefresh s g (snapshot n) = false := by simp [fullRefresh, hrefresh, hprev]
  by_cases hg : g = .sb
  · subst hg
    simp [passRecords_sb, hfull, hprev]
  · simp [passRecords_bitGroup hg, hfull, hprev]

/-- A register written with what it holds, and no record emitted, is no change. -/
theorem setPrev_prev_of_emitAll_nil (s : State) (g : Group) : (s.emitAll []).setPrev g (s.prev g) = s := by
  have hemit : s.emitAll [] = s := by simp [State.emitAll]
  rw [hemit]
  cases g <;> rfl

/-- A `DIFF` on the octets held changes nothing, without a refresh request (R163 (a)). -/
theorem exec_diff_of_prev_eq {s : State} {g : Group} {n : List Octet} (hrefresh : s.refresh = false)
    (hprev : s.prev g = bitsOf n) : exec (.diff g n) s = .next s := by
  rw [exec_diff, passRecords_of_prev_eq hrefresh (hprev.trans (snapshot_eq_bitsOf n).symm), ← hprev,
    setPrev_prev_of_emitAll_nil]

/-- Settles O38: a `DIFF` leaves its octets in the register, where the next one finds them. -/
theorem equalSnapshotsEmitNothing : Obligations.EqualSnapshotsEmitNothing := by
  intro s t g n hrefresh
  refine ⟨exec_diff_of_prev_eq hrefresh, fun h => ?_⟩
  rw [← next_inj ((exec_diff g n s).symm.trans h)]
  exact exec_diff_of_prev_eq (by simpa using hrefresh) (setPrev_prev_self _ g _)

/-- The one number below a bound that passes a test. -/
theorem filter_range_eq_singleton {p : Nat → Bool} {m k : Nat} (hk : k < m) (h : ∀ i < m, p i = true ↔ i = k) :
    (List.range m).filter p = [k] := by
  have hp : ∀ i ∈ List.range m, p i = (i == k) := fun i hi => by
    rw [Bool.eq_iff_iff, h i (List.mem_range.mp hi), beq_iff_eq]
  rw [List.filter_congr hp, List.filter_beq, List.count_eq_one_of_mem List.nodup_range (List.mem_range.mpr hk)]
  rfl

/-- Where the octets differ in bit j of octet k only, octet k alone differs (R163 (b)). -/
theorem getD_octet_ne_iff_of_one_bit {old n : List Octet} {k j : Nat} (hj : j < 8)
    (hbit : ∀ i, i < 8 * n.length → (bitOf n i ≠ bitOf old i ↔ i = 8 * k + j)) {i : Nat} (hi : i < n.length) :
    n.getD i 0 ≠ old.getD i 0 ↔ i = k := by
  rw [getD_octet_ne_iff]
  constructor
  · rintro ⟨j', hj', hne⟩
    have := (hbit (8 * i + j') (by omega)).mp hne
    omega
  · rintro rfl
    exact ⟨j, hj, (hbit (8 * i + j) (by omega)).mpr rfl⟩

/-- Settles O39: one index, or one octet for `SB`, passes the test of the pass. -/
theorem oneChangedBitGivesOneEvent : Obligations.OneChangedBitGivesOneEvent := by
  intro s g old n k j hrefresh hprev hlen hk hj hbit
  by_cases hg : g = .sb
  · subst hg
    rw [diffSbEmitsWholeRecords s old n [k] hprev, if_pos rfl]
    · rfl
    · refine (filter_range_eq_singleton hk fun i hi => ?_).symm
      simpa [hrefresh, hlen] using getD_octet_ne_iff_of_one_bit hj hbit hi
  · rw [diffBitsEmitsTheChanges s g n [8 * k + j] hg, if_neg hg]
    · rfl
    · refine (filter_range_eq_singleton (by omega) fun i hi => ?_).symm
      rw [hprev, ← snapshot_eq_bitsOf, snapshot_getD, snapshot_length]
      simpa [hrefresh, hlen] using hbit i hi

/-! ## Event addresses -/

/-- An address event or a composite event has an address of its group's range, and no address event is of `SB`
(R155, R162). -/
def Event.InRange (p : Params) : Event → Prop
  | .ae g a _ => g ≠ .sb ∧ p.base g ≤ a.toNat ∧ a.toNat < p.base g + 2040
  | .sbe a _ => p.base .sb ≤ a.toNat ∧ a.toNat < p.base .sb + 255
  | .tg _ _ _ _ => True
  | .drop _ _ => True
  | .clsr _ _ _ => True
  | .csrv _ _ => True
  | .err _ _ => True

/-- No address wraps: the base leaves room for 2040 indices (R5, R162). -/
theorem eventAddress_toNat (p : Configuration) (g : Group) {i : Nat} (hi : i < 2040) :
    (eventAddress (p.base g) i).toNat = p.base g + i := by
  have hbase := p.base_lt g
  rw [eventAddress, BitVec.toNat_ofNat, Nat.mod_eq_of_lt (by rw [Config.addrW]; omega)]

/-- A pass on the octets one operation can carry stays in its group's range (R155, R162). -/
theorem inRange_of_mem_passRecords {s : State} {g : Group} {n : List Octet} (hn : n.length ≤ 255) {e : Event}
    (he : e ∈ passRecords s g n) : e.InRange s.cfg.toParams := by
  rcases mem_passRecords he with ⟨hg, i, hi, rfl⟩ | ⟨-, k, hk, rfl⟩
  · have haddr := eventAddress_toNat s.cfg g (i := i) (by omega)
    exact ⟨hg, by omega, by omega⟩
  · have haddr := eventAddress_toNat s.cfg .sb (i := k) (by omega)
    exact ⟨by omega, by omega⟩

/-- The records of an `RX` stay in their groups' ranges (R140, R162). -/
theorem rx_inRange (c : List Octet) (s : State) : ∀ e ∈ newRecords s (rx c s), e.InRange s.cfg.toParams := by
  rcases rx_cases c s with ⟨reason, k, h⟩ | ⟨-, -, h⟩ | ⟨-, -, h⟩ | ⟨-, frame, -, h⟩ <;> rw [h]
  · simp [newRecords, Event.InRange]
  · simp [newRecords]
  · simp [newRecords]
  · obtain ⟨recs, hevents, hrecs⟩ := deliver_events frame { s with buf := (s.buf ++ c).drop frame.length, iter := 0 }
    rw [newRecords_eq (s := s) hevents, List.forall_mem_cons]
    refine ⟨trivial, fun e he => ?_⟩
    obtain ⟨row, t, hcfg, hpass⟩ := hrecs e he
    have ht : t.cfg = s.cfg := hcfg
    exact ht ▸ inRange_of_mem_passRecords (groupSlice_length row _) hpass

/-- The records of an operation the decoder can read stay in their groups' ranges (R80, R162). -/
theorem exec_inRange {i : Instr} {s t : State} (hwf : i.wf = true) (h : exec i s = .next t) :
    ∀ e ∈ newRecords s t, e.InRange s.cfg.toParams := by
  cases i with
  | rx c => rw [← next_inj h]; exact rx_inRange c s
  | cls x => rw [← next_inj h, newRecords_eq (emit_events s _)]; simp [Event.InRange]
  | diff g n =>
    rw [← next_inj h, newRecords_eq (diffPass_events g n s)]
    exact fun e he => inRange_of_mem_passRecords (by simpa [Instr.wf] using hwf) he
  | setref => rw [← next_inj h]; simp [newRecords]
  | rds r =>
    rcases execRds_cases r s with ⟨v, -, hv⟩ | ⟨-, hv⟩
    · rw [← next_inj (hv.symm.trans h), newRecords_eq (emit_events s _)]; simp [Event.InRange]
    · rw [← next_inj (hv.symm.trans h), newRecords_eq (raiseErr_events s _ _)]; simp [Event.InRange]
  | reset => rw [← next_inj h]; simp [newRecords]

/-- The records of a step stay in their groups' ranges (R155, R162). -/
theorem step_inRange {s t : State} (h : step s = .next t) : ∀ e ∈ newRecords s t, e.InRange s.cfg.toParams := by
  rcases step_cases h with ⟨-, rfl⟩ | ⟨code, word, rest, -, rfl⟩ | ⟨i, rest, hd, hexec⟩
  · simp [newRecords]
  · simp [newRecords, Event.InRange]
  · exact exec_inRange (s := { s with input := rest }) (wf_of_decode hd) hexec

/-- Settles O40, by the octet counts the decoder and `GROUP_MAP` allow. -/
theorem eventAddressesStayInTheirRange : Obligations.EventAddressesStayInTheirRange :=
  fun _ _ h => ⟨fun _ _ _ => step_inRange h _, fun _ _ => step_inRange h _⟩

/-! ## `SETREF` -/

/-- Settles O41, by the meaning of `SETREF`. -/
theorem setrefOnlySetsRefresh : Obligations.SetrefOnlySetsRefresh := by
  refine fun s => ⟨rfl, fun hrefresh => congrArg Host.Outcome.next ?_⟩
  rw [← hrefresh]

end Sys2Proof.Machine

/-! PROOFS of the family 43_system_ops: `RESET` and the hardware reset restore the reset state (O46); no step writes a
parameter (O12). -/

namespace Sys2Proof.Machine

/-- `RESET` answers the state with the block's elements reset (R180). -/
theorem exec_reset (s : State) : exec .reset s = .next s.resetBlock := rfl

/-- Of the state before it, reset keeps the parameters and the two streams and no element of the block's state (R34,
R180, R181). -/
theorem resetBlock_eq (s : State) :
    s.resetBlock = { State.reset with cfg := s.cfg, input := s.input, events := s.events } := rfl

/-- The hardware reset is `RESET` with the event stream emptied (R220). -/
theorem hardwareReset_eq (s : State) : s.hardwareReset = { s.resetBlock with events := [] } := rfl

/-- Settles O46, by what reset keeps. -/
theorem resetRestoresTheResetState : Obligations.ResetRestoresTheResetState := by
  refine fun s => ⟨?_, ?_⟩
  · rw [exec_reset, resetBlock_eq]
  · rw [hardwareReset_eq, resetBlock_eq]; rfl

/-- No step writes a parameter (R5, R21). -/
theorem step_cfg {s t : State} (h : step s = .next t) : t.cfg = s.cfg := by
  rcases step_cases h with ⟨-, rfl⟩ | ⟨code, word, rest, -, rfl⟩ | ⟨i, rest, -, hexec⟩
  · rfl
  · rw [raiseErr_cfg]
  · exact (exec_outside hexec).1

/-- Settles O12, by what operations leave alone and by all that a step can do. -/
theorem parametersNeverChange : Obligations.ParametersNeverChange :=
  ⟨fun _ _ h => (exec_outside h).1, fun _ _ h => step_cfg h⟩

end Sys2Proof.Machine
